-- ==== Sys2Proof/Word.lean ====
section
/-! DEFINITION. The byte, and the names the spec gives to directions, answers, transaction states, phases, bus events, commands, status codes and error values. -/

namespace Sys2Proof

/-- Every register and every bus transfer is one byte (R56). -/
abbrev Byte := BitVec 8

/-- The direction bit of an address frame: write is 0, read is 1 (R84). -/
inductive Dir where
  | w
  | r
  deriving DecidableEq, Repr, Inhabited

/-- An acknowledge answer (glossary, R11). -/
inductive Ack where
  | ack
  | nak
  deriving DecidableEq, Repr, Inhabited

/-- ENV's answer to an address frame or a data byte, and what the controller answered to a byte it
received (R123, R124). -/
inductive Reply where
  | ack
  | nak
  | lost
  deriving DecidableEq, Repr, Inhabited

/-- The transaction state, the block's program counter (R33, R39). -/
inductive Txn where
  | idle
  | started
  | addrSent (dir : Dir) (answer : Ack)
  | dataPhase (dir : Dir) (answer : Ack)
  | stopped
  | lost
  deriving DecidableEq, Repr, Inhabited

/-- The phase in flight, with the operands sampled at its launch (R34, R121). -/
inductive Phase where
  | start
  | rstart
  | sla (frame : Byte)
  | dtx (byte : Byte)
  | drx (acken : Bool)
  | stop (silent : Bool)
  deriving DecidableEq, Repr, Inhabited

/-- An event of the bus trace (R124). -/
inductive Event where
  | start
  | rstart
  | addr (frame : Byte) (reply : Reply)
  | dtx (byte : Byte) (reply : Reply)
  | drx (byte : Byte) (reply : Reply)
  | stop
  deriving DecidableEq, Repr, Inhabited

/-- The commands a write to the control register spells (R77). -/
inductive Command where
  | disable
  | enable
  | start
  | stop
  | contNak
  | contAck
  | startNoclr
  | stopNoclr
  | stopStart
  deriving DecidableEq, Repr, Inhabited

/-- The eleven status codes the source names (R80); `noInfo` is the one further code the block
produces, which counts as unrecognized (R81). -/
inductive StatusCode where
  | start
  | rstart
  | slawAck
  | slawNak
  | datawAck
  | datawNak
  | arbLost
  | slarAck
  | slarNak
  | datarAck
  | datarNak
  | noInfo
  deriving DecidableEq, Repr, Inhabited

/-- The four host-visible registers (R51). -/
inductive Reg where
  | br
  | sr
  | dr
  | cr
  deriving DecidableEq, Repr, Inhabited

/-- The primitives whose call order is checked against the transaction state (R196, CallOrder). -/
inductive Prim where
  | transmitAddress
  | transmitByte
  | receiveByte
  deriving DecidableEq, Repr, Inhabited

/-- The error indications that are returned as values (R198). -/
inductive SeqError where
  | lengthOutOfRange
  | countMismatch
  deriving DecidableEq, Repr, Inhabited

/-- What HOST gets back from its last register read or pseudo-instruction: nothing, one byte, the
bytes of a sequential read, the text of the status decoder, or an error value (R71, R160, R170, R198). -/
inductive HostValue where
  | unit
  | byte (b : Byte)
  | bytes (bs : List Byte)
  | text (t : String)
  | error (e : SeqError)
  deriving DecidableEq, Repr, Inhabited

/-- One turn taken while a phase is in flight: whether SEQ moves before HOST (R10), and ENV's answers
to the five questions of R123 should SEQ ask them in this turn. -/
structure Turn where
  seqFirst  : Bool
  permits   : Bool
  addrReply : Reply
  dataReply : Reply
  readByte  : Byte
  readLost  : Bool
  deriving DecidableEq, Repr, Inhabited

/-- Bit `i` of a byte, bit 0 the least significant (R8). -/
abbrev Byte.bit (v : Byte) (i : Nat) : Bool := v.getLsbD i

end Sys2Proof
end

