-- ==== Sys2Proof/Config.lean ====
section
/-! DEFINITION. The implementation parameters of R7 and the free values: what the spec leaves open is an opaque constant, so nothing can be proved of it. -/

namespace Sys2Proof.Config

/-- `F_SRC`, the source clock in Hz, at the spec's default (R7, D21; UNVERIFIED, log 13). -/
def fSrc : Nat := 16000000

/-- `REG_BASE`, the host address of register offset 0, at the spec's default (R7, R51; UNVERIFIED, log 13). -/
def regBase : Nat := 0xB8

/-- `RESET_CR` (R7, R44; UNVERIFIED, log 11). -/
def resetCr : Byte := 0x00

/-- `RESET_SR` (R7, R44; UNVERIFIED, log 11). -/
def resetSr : Byte := 0xF8

/-- `RESET_DR` (R7, R44; UNVERIFIED, log 11). -/
def resetDr : Byte := 0xFF

/-- `RESET_BR` (R7, R44; UNVERIFIED, log 11). -/
def resetBr : Byte := 0x00

/-- `DEVICE_RAW_ADDR`, the EEPROM's raw address value (R7, R175; UNVERIFIED, log 13). -/
def deviceRawAddr : Byte := 0xA0

/-- `EEPROM_SIZE`, the number of bytes an 8-bit word address selects (R7, R55). -/
def eepromSize : Nat := 2 ^ 8

/-- The spec leaves `PAGE_SIZE` open but for being a power of two (R7, D27; DESIGN CHOICE, log 12). FREE VALUE. -/
opaque pageSizeLog : Nat

/-- `PAGE_SIZE`, the EEPROM's page size in bytes (R7, R179; DESIGN CHOICE, log 12). -/
def pageSize : Nat := 2 ^ pageSizeLog

/-- A byte the spec calls "any 8-bit value" (R104, R133, R150): one per number of the draw counter
`State.draws` (DESIGN CHOICE, log 10). FREE VALUE. -/
opaque freeByte : Nat → Byte

/-- The unconstrained environment oracle (R123) and HOST's unspecified polling speed (R10): what
happens in a turn that `State.turns` does not give. It may depend on the trace so far, on the phase
with its operand, and through the draw counter on anything hidden (DESIGN CHOICE, log 1). FREE VALUE. -/
opaque freeTurn : Nat → List Event → Phase → Turn

end Sys2Proof.Config
end

