-- ==== Sys2Proof/Syntax.lean ====
section
/-! DEFINITION. The instructions: one constructor per row of spec/opcode_table.json (R91). -/

namespace Sys2Proof

/-- The operations at the three levels of R70 and the pseudo-instructions of R90. -/
inductive Instr where
  -- Level 1, format ACC: one host register access (R72).
  | rdBr
  | wrBr (d : Byte)
  | rdSr
  | wrSr (v : Byte)
  | rdDr
  | wrDr (d : Byte)
  | rdCr
  | wrCr (v : Byte)
  | reservedOff2 (we : Bool) (data : Byte)
  | reservedOff5 (we : Bool) (data : Byte)
  | reservedOff6 (we : Bool) (data : Byte)
  | reservedOff7 (we : Bool) (data : Byte)
  -- Level 2, format CRW: the command that the value `v` written to CR spells (R77).
  | cmdDisable (v : Byte)
  | cmdEnable (v : Byte)
  | cmdStart (v : Byte)
  | cmdStop (v : Byte)
  | cmdContNak (v : Byte)
  | cmdContAck (v : Byte)
  | cmdStartNoclr (v : Byte)
  | cmdStopNoclr (v : Byte)
  | cmdStopStart (v : Byte)
  -- Level 3, format PHASE: SEQ's completion of the phase in flight, with the phase's operand (R126 to R134).
  | phStart
  | phRstart
  | phSlaW (frame : Byte)
  | phSlaR (frame : Byte)
  | phDataTx (byte : Byte)
  | phDataRxAck
  | phDataRxNak
  | phStop (silent : Bool)
  -- Format PSEUDO: the primitives, the status decoder and the EEPROM sequences (R90).
  | initializeBus (targetFrequencyHz : Nat)
  | start
  | stop
  | status
  | transmitAddress (raw : Byte) (dir : Dir)
  | transmitByte (data : Byte)
  | receiveByte (ackFollowing : Bool)
  | describe (code : Byte)
  | readByte (address : Byte)
  | writeByte (address : Byte) (data : Byte)
  | waitUntilWriteComplete
  | writePage (startAddress : Byte) (data : List Byte)
  | sequentialRead (startAddress : Byte) (count : Nat)
  deriving DecidableEq, Repr

end Sys2Proof
end

