-- ==== Sys2Proof/WellFormed.lean ====
section
/-! DEFINITION. Which terms of Instr stand for an operation: a command's value matches its row's mask, an address phase's frame has its row's direction bit. -/

namespace Sys2Proof

/-- `v & mask = match`, the test of R77. -/
def matchesMask (v mask value : Byte) : Bool := v &&& mask == value

/-- A command carries a value that spells it (the mask and match columns of R77); an address phase
carries a frame of its direction (R128, R129). Every other term is an operation as it stands. -/
def Instr.wf : Instr → Bool
  | .rdBr | .wrBr _ | .rdSr | .wrSr _ | .rdDr | .wrDr _ | .rdCr | .wrCr _ => true
  | .reservedOff2 _ _ | .reservedOff5 _ _ | .reservedOff6 _ _ | .reservedOff7 _ _ => true
  | .cmdDisable v => matchesMask v 0x04 0x00
  | .cmdEnable v => matchesMask v 0xB4 0x04
  | .cmdStart v => matchesMask v 0xB4 0xA4
  | .cmdStop v => matchesMask v 0xB4 0x94
  | .cmdContNak v => matchesMask v 0xF4 0x84
  | .cmdContAck v => matchesMask v 0xF4 0xC4
  | .cmdStartNoclr v => matchesMask v 0xB4 0x24
  | .cmdStopNoclr v => matchesMask v 0xB4 0x14
  | .cmdStopStart v => matchesMask v 0x34 0x34
  | .phStart | .phRstart => true
  | .phSlaW frame => !frame.bit 0
  | .phSlaR frame => frame.bit 0
  | .phDataTx _ | .phDataRxAck | .phDataRxNak | .phStop _ => true
  | .initializeBus _ | .start | .stop | .status | .transmitAddress _ _ | .transmitByte _ | .receiveByte _ => true
  | .describe _ => true
  | .readByte _ | .writeByte _ _ | .waitUntilWriteComplete | .writePage _ _ | .sequentialRead _ _ => true

end Sys2Proof
end

