-- ==== Sys2Proof/Decode.lean ====
section
/-! DEFINITION. From words to instructions and back: the 12-bit access word (R71, R72), the 8-bit value written to CR (R73, R77, R78), and their layout as bytes. -/

namespace Sys2Proof

/-- Why a run of bytes is no word of this block. -/
inductive DecodeError where
  /-- Neither one byte (a CR value) nor two (an access word). -/
  | badLength (n : Nat)
  /-- Bits 15:12 of the two bytes that hold a 12-bit access word are not 0. -/
  | highBitsSet (hi : Byte)
  deriving DecidableEq, Repr

/-- Command decode is total (R78). -/
def decodeCommand (v : Byte) : Command :=
  if !v.bit 2 then .disable
  else if v.bit 5 && v.bit 4 then .stopStart
  else if v.bit 5 then (if v.bit 7 then .start else .startNoclr)
  else if v.bit 4 then (if v.bit 7 then .stop else .stopNoclr)
  else if v.bit 7 then (if v.bit 6 then .contAck else .contNak)
  else .enable

/-- The CRW instruction of a command (R77). -/
def commandInstr (v : Byte) : Command → Instr
  | .disable => .cmdDisable v
  | .enable => .cmdEnable v
  | .start => .cmdStart v
  | .stop => .cmdStop v
  | .contNak => .cmdContNak v
  | .contAck => .cmdContAck v
  | .startNoclr => .cmdStartNoclr v
  | .stopNoclr => .cmdStopNoclr v
  | .stopStart => .cmdStopStart v

/-- Format CRW (R73, R78). -/
def decodeCrw (v : Byte) : Instr := commandInstr v (decodeCommand v)

/-- The fields `we`, `off`, `data` of the access word (R71). -/
def accessWe (w : BitVec 12) : Bool := w.getLsbD 11
def accessOff (w : BitVec 12) : BitVec 3 := w.extractLsb' 8 3
def accessData (w : BitVec 12) : Byte := w.extractLsb' 0 8

/-- The instruction with the fields `we`, `off`, `data`: the rows of R72 cover all of them. -/
def accessInstr (we : Bool) (off : BitVec 3) (data : Byte) : Instr :=
  match off.toNat with
  | 0 => if we then .wrBr data else .rdBr
  | 1 => if we then .wrSr data else .rdSr
  | 2 => .reservedOff2 we data
  | 3 => if we then .wrDr data else .rdDr
  | 4 => if we then .wrCr data else .rdCr
  | 5 => .reservedOff5 we data
  | 6 => .reservedOff6 we data
  | _ => .reservedOff7 we data

/-- Format ACC is total: every 12-bit word is one of the rows of R72. -/
def decodeAccess (w : BitVec 12) : Instr := accessInstr (accessWe w) (accessOff w) (accessData w)

/-- Decoding any bytes: one byte is a value written to CR, two bytes are an access word, the low byte
first and bits 15:12 zero (DESIGN CHOICE, log 6). Anything else is refused by name. -/
def decode : List Byte → Except DecodeError Instr
  | [v] => .ok (decodeCrw v)
  | [lo, hi] =>
    if hi &&& 0xF0 == 0 then .ok (decodeAccess (hi.extractLsb' 0 4 ++ lo)) else .error (.highBitsSet hi)
  | bs => .error (.badLength bs.length)

/-- The access word `we ++ off ++ data` (R71). -/
def accessWord (we : Bool) (off : BitVec 3) (data : Byte) : BitVec 12 :=
  BitVec.ofBool we ++ off ++ data

/-- An access word as two bytes, the low byte first (DESIGN CHOICE, log 6). -/
def accessBytes (w : BitVec 12) : List Byte := [w.extractLsb' 0 8, (w.extractLsb' 8 4).setWidth 8]

/-- The bytes of an instruction, where it has a bit pattern of its own. A read's ignored data field is
the canonical 0x00 (R71). A phase has no word of its own, the command that launches it has (R79, log 9);
a pseudo-instruction has no bit encoding (R90). -/
def encode : Instr → Option (List Byte)
  | .rdBr => some (accessBytes (accessWord false 0 0x00))
  | .wrBr d => some (accessBytes (accessWord true 0 d))
  | .rdSr => some (accessBytes (accessWord false 1 0x00))
  | .wrSr v => some (accessBytes (accessWord true 1 v))
  | .rdDr => some (accessBytes (accessWord false 3 0x00))
  | .wrDr d => some (accessBytes (accessWord true 3 d))
  | .rdCr => some (accessBytes (accessWord false 4 0x00))
  | .wrCr v => some (accessBytes (accessWord true 4 v))
  | .reservedOff2 we data => some (accessBytes (accessWord we 2 data))
  | .reservedOff5 we data => some (accessBytes (accessWord we 5 data))
  | .reservedOff6 we data => some (accessBytes (accessWord we 6 data))
  | .reservedOff7 we data => some (accessBytes (accessWord we 7 data))
  | .cmdDisable v | .cmdEnable v | .cmdStart v | .cmdStop v | .cmdContNak v | .cmdContAck v
  | .cmdStartNoclr v | .cmdStopNoclr v | .cmdStopStart v => some [v]
  | .phStart | .phRstart | .phSlaW _ | .phSlaR _ | .phDataTx _ | .phDataRxAck | .phDataRxNak | .phStop _ => none
  | .initializeBus _ | .start | .stop | .status | .transmitAddress _ _ | .transmitByte _ | .receiveByte _ => none
  | .describe _ => none
  | .readByte _ | .writeByte _ _ | .waitUntilWriteComplete | .writePage _ _ | .sequentialRead _ _ => none

/-- A word of `nbits` bits as bytes, bits 7:0 first. -/
def bytesOfWord (nbits w : Nat) : List Byte :=
  (List.range ((nbits + 7) / 8)).map fun i => BitVec.ofNat 8 (w / 256 ^ i)

/-- The instruction the decoder reads from a table row's bits. -/
def decodeTableWord (nbits w : Nat) : Option Instr :=
  match decode (bytesOfWord nbits w) with
  | .ok i => some i
  | .error _ => none

end Sys2Proof
end

