-- ==== Sys2Proof/Machine/State.lean ====
section
/-! DEFINITION. The state record S of R20, HOST's and ENV's side of the step as plain data, the reasons a step can stop, and the state after reset. -/

namespace Sys2Proof.Machine

/-- What is wrong with a call of a primitive (R196). -/
inductive Contract where
  /-- A primitive other than `initialize` or `status` before `initialize` (R151, R152, R154 to R156). -/
  | notInitialized
  /-- A second `initialize` (R150). -/
  | alreadyInitialized
  /-- A primitive called in a transaction state its rule does not permit (R154 to R156). -/
  | callOrder (prim : Prim) (txn : Txn)
  deriving DecidableEq, Repr

/-- The closed list of faults (R196). Raising one sets `State.fault`; every step of a faulted state
ends in `Host.Outcome.fault` with the recorded reason (R37, R197). All are SAFE: the real peripheral
goes on there, and nothing is said of how. -/
inductive Fault where
  /-- Raised by an access to offset 2, 5, 6 or 7 (R52, R108). Safe. -/
  | reservedOffset (off : BitVec 3)
  /-- Raised by a write to CR or DR while a phase is in flight (R105, R107). Safe. -/
  | writeDuringPhase
  /-- Raised by a write to DR while INT = 0 and no phase is in flight (R105). Safe. -/
  | dataWriteWhileFlagClear
  /-- Raised by a CR value with STA and STO, or with one of them and bit 7 clear, EN = 1 (R107). Safe. -/
  | unadmittedCommand (v : Byte)
  /-- Raised by EN written 0 while txn is not Idle (R107). Safe. -/
  | disableDuringTransaction
  /-- Raised by a command the table of R79 does not permit in txn (R107). Safe. -/
  | illegalPhase (txn : Txn) (cmd : Command)
  /-- Raised by a primitive before any access, when its precondition fails (R150 to R157). Safe. -/
  | contractViolation (c : Contract)
  deriving DecidableEq, Repr

/-- Where the model has no meaning to give. -/
inductive Refusal where
  /-- An instruction of the table without a meaning: answered by `exec` alone. Safe. -/
  | notModelled (mnemonic : String)
  /-- HOST presents bytes that are neither an access word nor a CR value (R57: no other access exists;
  DESIGN CHOICE, log 6). Raised by fetching. Safe. -/
  | undecodable (e : DecodeError)
  /-- HOST's list holds a term that stands for no operation (`Instr.wf`; DESIGN CHOICE, log 20). Raised by fetching. Safe. -/
  | illFormed
  /-- SEQ's completion of a phase that is not the one in flight: R122 has no such step (DESIGN CHOICE, log 8).
  Raised by the eight phase instructions. Safe. -/
  | phaseNotInFlight
  deriving DecidableEq, Repr

/-- The control register's five bits; its other three read 0 and ignore writes (R21 to R27). -/
structure Cr where
  int   : Bool
  acken : Bool
  sta   : Bool
  sto   : Bool
  en    : Bool
  deriving DecidableEq, Repr

/-- The status register's two fields; its bit 2 reads 0 and ignores writes (R28 to R30). -/
structure Sr where
  code : BitVec 5
  psc  : BitVec 2
  deriving DecidableEq, Repr

/-- One piece of HOST's remaining work (DESIGN CHOICE, log 3, log 7). -/
inductive HostOp where
  /-- A word HOST presents at its port, as bytes: an access word or a value for CR (R71, R73). -/
  | word (bytes : List Byte)
  /-- An access, or a call of a pseudo-instruction (R88, R90). -/
  | run (i : Instr)
  /-- `wait_until(RegRead(CR)[7] = 1)`, the wait of R151, R154 to R156. -/
  | waitInt
  /-- `wait_until(RegRead(CR)[4] = 0)`, the wait of R152. -/
  | waitSto
  /-- `S.initialized <- true`, the end of R150. -/
  | setInitialized
  /-- `& 0xF8` on the byte just read (R153). -/
  | maskStatus
  /-- Keep the byte just returned among the sequence's local variables (R176, R180). -/
  | keepByte
  /-- `until status() = 0x18`, the test of the completion poll (R178). -/
  | pollTest
  /-- Return nothing. -/
  | retUnit
  /-- Return the byte kept (R176). -/
  | retByte
  /-- Return all bytes kept (R180). -/
  | retBytes
  deriving DecidableEq, Repr

/-- The state. The first nine fields are the record S of R20. The last five are the model's own: the
arguments of the spec's step relation (HOST's program, ENV) and HOST's variables. -/
structure State where
  cr          : Cr
  sr          : Sr
  dr          : Byte
  br          : Byte
  txn         : Txn
  phase       : Option Phase
  trace       : List Event      -- oldest first (R35)
  initialized : Bool
  fault       : Option Fault
  todo        : List HostOp     -- HOST's remaining work, next first (DESIGN CHOICE, log 3)
  out         : List Byte       -- local variables of a running sequence (DESIGN CHOICE, log 7)
  result      : HostValue       -- what HOST's last read or pseudo-instruction returned (DESIGN CHOICE, log 5)
  turns       : List Turn       -- ENV's answers given from outside, next first (DESIGN CHOICE, log 1)
  draws       : Nat             -- free values drawn so far (DESIGN CHOICE, log 10)
  deriving DecidableEq, Repr

/-- The state after reset (R44, R215). The last five fields are the model's own (log 1, 3, 5, 7, 10). -/
def State.reset : State where
  cr := { int := Config.resetCr.bit 7, acken := Config.resetCr.bit 6, sta := Config.resetCr.bit 5,
          sto := Config.resetCr.bit 4, en := Config.resetCr.bit 2 }
  sr := { code := Config.resetSr.extractLsb' 3 5, psc := Config.resetSr.extractLsb' 0 2 }
  dr := Config.resetDr
  br := Config.resetBr
  txn := .idle
  phase := none
  trace := []
  initialized := false
  fault := none
  todo := []
  out := []
  result := .unit
  turns := []
  draws := 0

end Sys2Proof.Machine
end

