-- ==== Sys2Proof/Machine/Operands.lean ====
section
/-! DEFINITION. Operand forms: the registers as bytes, the fields of a written value, the address frame, the divider of initialize, the host address map and the bus clock. -/

namespace Sys2Proof.Machine

/-- A host read of CR: `INT ++ ACKEN ++ STA ++ STO ++ 0 ++ EN ++ 0 ++ 0` (R21, R106). -/
def Cr.toByte (c : Cr) : Byte :=
  BitVec.ofBool c.int ++ BitVec.ofBool c.acken ++ BitVec.ofBool c.sta ++ BitVec.ofBool c.sto ++
    0#1 ++ BitVec.ofBool c.en ++ 0#2

/-- A host read of SR: `CODE ++ 0 ++ PSC` (R28, R74, R102). -/
def Sr.toByte (r : Sr) : Byte := r.code ++ 0#1 ++ r.psc

/-- The new PSC in a value written to SR (R74, R103). -/
def pscOf (v : Byte) : BitVec 2 := v.extractLsb' 0 2

/-- The new ACKEN in a value written to CR (R73). -/
def ackOf (v : Byte) : Bool := v.bit 6

/-- CR after a command: EN, STA and STO as the command sets them, ACKEN from the written value, INT
as given (R107). -/
def Cr.command (int sta sto en : Bool) (v : Byte) : Cr :=
  { int := int, acken := ackOf v, sta := sta, sto := sto, en := en }

/-- `status()`'s mask (R82). -/
def statusMask : Byte := 0xF8

/-- `W = 0`, `R = 1` (R84). -/
def dirBit : Dir → Byte
  | .w => 0
  | .r => 1

/-- The direction an address frame carries in its bit 0 (R84). -/
def frameDir (frame : Byte) : Dir := if frame.bit 0 then .r else .w

/-- The address frame `(raw & 0xFE) | dir` (R83). -/
def addressFrame (raw : Byte) (dir : Dir) : Byte := (raw &&& 0xFE) ||| dirBit dir

/-- The 7-bit address on the bus, `frame[7:1]` (R83). -/
def frameAddress (frame : Byte) : BitVec 7 := frame.extractLsb' 1 7

/-- The divider `initialize` writes for a target that is not 0 (R150). -/
def dividerFor (targetFrequencyHz : Nat) : Byte :=
  let q := Config.fSrc / targetFrequencyHz
  let n := if q ≥ 16 then q - 16 else 0
  BitVec.ofNat 8 (n / 8)

/-- The register at an offset; offsets 2, 5, 6 and 7 hold none (R51, R52). -/
def regAt (off : BitVec 3) : Option Reg :=
  match off.toNat with
  | 0 => some .br
  | 1 => some .sr
  | 3 => some .dr
  | 4 => some .cr
  | _ => none

/-- The host address of an offset (R50). -/
def hostAddress (off : BitVec 3) : Nat := Config.regBase + off.toNat

/-- The offset a host address selects; the block fixes nothing of any other address (R50, R53). -/
def offsetAt (addr : Nat) : Option (BitVec 3) :=
  if Config.regBase ≤ addr ∧ addr < Config.regBase + 8 then some (BitVec.ofNat 3 (addr - Config.regBase)) else none

/-- The prescaler factor `P = 4^PSC` (R30, R86). -/
def prescaler (psc : BitVec 2) : Nat := 4 ^ psc.toNat

/-- The bus clock `F_SRC / (16 + 2 * BR * P)` in Hz, exact (R233). No step reads it (R13). -/
def busClock (br : Byte) (psc : BitVec 2) : ℚ := (Config.fSrc : ℚ) / ((16 + 2 * br.toNat * prescaler psc : Nat) : ℚ)

end Sys2Proof.Machine
end

