-- ==== Sys2Proof/Machine/Flags.lean ====
section
/-! DEFINITION. The status codes, the command and phase tables, and the flag and code changes of a launch, a phase's completion and a lost arbitration. -/

namespace Sys2Proof.Machine

/-- The 5-bit CODE of each status code (R80, R81). -/
def statusCode : StatusCode → BitVec 5
  | .start => 0b00001
  | .rstart => 0b00010
  | .slawAck => 0b00011
  | .slawNak => 0b00100
  | .datawAck => 0b00101
  | .datawNak => 0b00110
  | .arbLost => 0b00111
  | .slarAck => 0b01000
  | .slarNak => 0b01001
  | .datarAck => 0b01010
  | .datarNak => 0b01011
  | .noInfo => 0b11111

/-- `CODE8 = CODE ++ 0b000` (R29). -/
def code8 (c : BitVec 5) : Byte := c ++ 0#3

/-- The phase CMD_START launches in a transaction state (R79, R107); none where it is not permitted. -/
def startPhase : Txn → Option Phase
  | .idle => some .start
  | .lost => some .start
  | .started => some .rstart
  | .addrSent _ _ => some .rstart
  | .dataPhase .w _ => some .rstart
  | .dataPhase .r .nak => some .rstart
  | .dataPhase .r .ack => none
  | .stopped => none

/-- The phase CMD_CONT_NAK and CMD_CONT_ACK launch, from txn, DR and the new ACKEN (R79, R107); none
where they are not permitted. -/
def contPhase (txn : Txn) (dr : Byte) (acken : Bool) : Option Phase :=
  match txn with
  | .started => some (.sla dr)
  | .addrSent .w .ack => some (.dtx dr)
  | .dataPhase .w _ => some (.dtx dr)
  | .addrSent .r .ack => some (.drx acken)
  | .dataPhase .r .ack => some (.drx acken)
  | .idle => none
  | .addrSent _ .nak => none
  | .dataPhase .r .nak => none
  | .lost => none
  | .stopped => none

/-- The controller owns the bus exactly in Started, AddrSent, DataPhase and Stopped (R42 (b)). In Stopped
it is so by txn alone, also while the STOP is silent (DEDUCED, log 24). -/
def ownsBus : Txn → Bool
  | .started => true
  | .addrSent _ _ => true
  | .dataPhase _ _ => true
  | .stopped => true
  | .idle => false
  | .lost => false

/-- Whether the STOP launched in a transaction state is silent: the controller does not own the bus, that
is, txn is Idle or Lost (R107, R121, R134). -/
def stopSilent (txn : Txn) : Bool := !ownsBus txn

/-- The states in which `transmitByte` may be called (R155). -/
def mayTransmit : Txn → Bool
  | .addrSent .w .ack => true
  | .dataPhase .w _ => true
  | _ => false

/-- The states in which `receiveByte` may be called (R156). -/
def mayReceive : Txn → Bool
  | .addrSent .r .ack => true
  | .dataPhase .r .ack => true
  | _ => false

end Sys2Proof.Machine
end

