-- ==== Sys2Proof/Machine/Ops.lean ====
section
/-! DEFINITION. The named operations over the state: raising a fault, reading and writing registers, launching a phase, completing one, one turn of ENV, a free draw, and pushing HOST's work. -/

namespace Sys2Proof.Machine

/-- The three outcomes of a step of this machine. -/
abbrev Outcome := Host.Outcome State Fault Refusal

/-- A rule applies only in an unfaulted state; a faulted state has no further step (R37, R197). -/
def unlessFaulted (s : State) (o : Outcome) : Outcome :=
  match s.fault with
  | some r => .fault r
  | none => o

/-- `raise Fault(r)`: sets `S.fault` and changes nothing else (R196, R197; DEDUCED, log 4). -/
def State.raise (r : Fault) (s : State) : State := { s with fault := some r }

/-- HOST gets a value back. -/
def State.returns (v : HostValue) (s : State) : State := { s with result := v }

/-- HOST's next work is `ops`, before what it had to do. -/
def State.push (ops : List HostOp) (s : State) : State := { s with todo := ops ++ s.todo }

/-- The value of the next free draw (DESIGN CHOICE, log 10). -/
def State.freeByte (s : State) : Byte := Config.freeByte s.draws

/-- One free value has been drawn. -/
def State.drawn (s : State) : State := { s with draws := s.draws + 1 }

/-- This turn's schedule and ENV's answers for the phase in flight: as given, else free (R123; DESIGN CHOICE, log 1). -/
def State.turn (k : Phase) (s : State) : Turn :=
  match s.turns with
  | t :: _ => t
  | [] => Config.freeTurn s.draws s.trace k

/-- This turn is over. -/
def State.nextTurn (s : State) : State := { s with turns := s.turns.tail, draws := s.draws + 1 }

/-- `RegRead(name)`: the register's value goes to HOST; no register changes (R58, R100, R102, R104,
R106). DR read while a phase is in flight is a free draw (R104). -/
def State.readReg (r : Reg) (s : State) : State :=
  match r with
  | .br => s.returns (.byte s.br)
  | .sr => s.returns (.byte s.sr.toByte)
  | .cr => s.returns (.byte s.cr.toByte)
  | .dr =>
    match s.phase with
    | none => s.returns (.byte s.dr)
    | some _ => (s.returns (.byte s.freeByte)).drawn

/-- `launch(k)` as the last action of a CR write that has set CR to `c` (R121): the block's return
from a completion (R203). -/
def State.launch (k : Phase) (c : Cr) (s : State) : State := { s with cr := c, phase := some k }

/-- The completion of a phase other than STOP: CODE, txn, INT = 1, the event, and no phase in flight,
in one update (R122, R126 to R133): the block's trap entry (R202). -/
def State.complete (code : StatusCode) (txn : Txn) (e : Event) (s : State) : State :=
  { s with cr := { s.cr with int := true }, sr := { s.sr with code := statusCode code }, txn := txn,
           trace := s.trace ++ [e], phase := none }

/-- Arbitration was lost in an address or data-transmission phase: DR becomes any value (R133). -/
def State.completeLost (e : Event) (s : State) : State :=
  { (s.complete .arbLost .lost e).drawn with dr := s.freeByte }

/-- A reception phase completes: DR takes the byte received (R131, R132). -/
def State.completeReceived (b : Byte) (code : StatusCode) (txn : Txn) (e : Event) (s : State) : State :=
  { s.complete code txn e with dr := b }

/-- The STOP phase completes: STO = 0, CODE = NO_INFO, txn = Idle, and the event unless silent; INT
is not set (R134). -/
def State.completeStop (silent : Bool) (s : State) : State :=
  { s with cr := { s.cr with sto := false }, sr := { s.sr with code := statusCode .noInfo }, txn := .idle,
           trace := if silent then s.trace else s.trace ++ [.stop], phase := none }

/-- `WR_DR d` (R105). -/
def writeDr (d : Byte) (s : State) : Outcome :=
  if s.phase.isSome then .next (s.raise .writeDuringPhase)
  else if !s.cr.int then .next (s.raise .dataWriteWhileFlagClear)
  else .next { s with dr := d }

/-- The command `cmd` written to CR by the value `v` (R107); the checks in the order of R201. -/
def writeCommand (cmd : Command) (v : Byte) (s : State) : Outcome :=
  if s.phase.isSome then .next (s.raise .writeDuringPhase)
  else match cmd with
    | .stopStart => .next (s.raise (.unadmittedCommand v))
    | .startNoclr => .next (s.raise (.unadmittedCommand v))
    | .stopNoclr => .next (s.raise (.unadmittedCommand v))
    | .disable =>
      if s.txn == .idle then .next { s with cr := Cr.command s.cr.int false false false v }
      else .next (s.raise .disableDuringTransaction)
    | .enable => .next { s with cr := Cr.command s.cr.int false false true v }
    | .start =>
      match startPhase s.txn with
      | some k => .next (s.launch k (Cr.command false true false true v))
      | none => .next (s.raise (.illegalPhase s.txn .start))
    | .stop =>
      .next ({ s with txn := .stopped }.launch (.stop (stopSilent s.txn)) (Cr.command false false true true v))
    | .contNak =>
      match contPhase s.txn s.dr (ackOf v) with
      | some k => .next (s.launch k (Cr.command false false false true v))
      | none => .next (s.raise (.illegalPhase s.txn .contNak))
    | .contAck =>
      match contPhase s.txn s.dr (ackOf v) with
      | some k => .next (s.launch k (Cr.command false false false true v))
      | none => .next (s.raise (.illegalPhase s.txn .contAck))

/-- `RegWrite(name, v)` (R101, R103, R105, R107). -/
def writeReg (r : Reg) (v : Byte) (s : State) : Outcome :=
  match r with
  | .br => .next { s with br := v }
  | .sr => .next { s with sr := { s.sr with psc := pscOf v } }
  | .dr => writeDr v s
  | .cr => writeCommand (decodeCommand v) v s

/-- A host read of `x[off]` (R50); an offset that holds no register faults (R52, R108). -/
def regRead (off : BitVec 3) (s : State) : Outcome :=
  unlessFaulted s <|
    match regAt off with
    | some r => .next (s.readReg r)
    | none => .next (s.raise (.reservedOffset off))

/-- A host write of `x[off]` (R50); an offset that holds no register faults (R52, R108). -/
def regWrite (off : BitVec 3) (v : Byte) (s : State) : Outcome :=
  unlessFaulted s <|
    match regAt off with
    | some r => writeReg r v s
    | none => .next (s.raise (.reservedOffset off))

/-- A host access in either direction (R71). -/
def regAccess (we : Bool) (off : BitVec 3) (data : Byte) (s : State) : Outcome :=
  if we then regWrite off data s else regRead off s

/-- SEQ's completion step for the phase `k`: enabled when `k` is in flight and ENV permits it now
(R122). Where ENV does not, the phase stays in flight; either way the turn is over. -/
def seqComplete (k : Phase) (effect : Turn → State → State) (s : State) : Outcome :=
  unlessFaulted s <|
    if s.phase = some k then
      if (s.turn k).permits then .next (effect (s.turn k) s.nextTurn) else .next s.nextTurn
    else .refused .phaseNotInFlight

/-- A call of a primitive: the contract is checked on the state at the call, before any access (R157);
then HOST's next work is the expansion. -/
def callPrimitive (violation : Option Contract) (expansion : List HostOp) (s : State) : Outcome :=
  unlessFaulted s <|
    match violation with
    | some c => .next (s.raise (.contractViolation c))
    | none => .next (s.push expansion)

/-- `require S.initialized` (R151, R152). -/
def requireInitialized (s : State) : Option Contract :=
  if s.initialized then none else some .notInitialized

/-- `require S.initialized and S.txn in ...`, in the order of R201. -/
def requireTxn (prim : Prim) (permitted : Bool) (s : State) : Option Contract :=
  if !s.initialized then some .notInitialized
  else if permitted then none
  else some (.callOrder prim s.txn)

end Sys2Proof.Machine
end

