-- ==== Sys2Proof/Machine/Access.lean ====
section
/-! DEFINITION. The meanings of the host register accesses, format ACC (R100 to R108). -/

namespace Sys2Proof.Machine

/-- RD_BR (R100). -/
def execRdBr (s : State) : Outcome := regRead 0 s

/-- WR_BR (R101). -/
def execWrBr (d : Byte) (s : State) : Outcome := regWrite 0 d s

/-- RD_SR (R102). -/
def execRdSr (s : State) : Outcome := regRead 1 s

/-- WR_SR (R103). -/
def execWrSr (v : Byte) (s : State) : Outcome := regWrite 1 v s

/-- RD_DR (R104). -/
def execRdDr (s : State) : Outcome := regRead 3 s

/-- WR_DR (R105). -/
def execWrDr (d : Byte) (s : State) : Outcome := regWrite 3 d s

/-- RD_CR (R106). -/
def execRdCr (s : State) : Outcome := regRead 4 s

/-- WR_CR (R107). -/
def execWrCr (v : Byte) (s : State) : Outcome := regWrite 4 v s

/-- An access to offset 2 (R108). -/
def execReservedOff2 (we : Bool) (data : Byte) (s : State) : Outcome := regAccess we 2 data s

/-- An access to offset 5 (R108). -/
def execReservedOff5 (we : Bool) (data : Byte) (s : State) : Outcome := regAccess we 5 data s

/-- An access to offset 6 (R108). -/
def execReservedOff6 (we : Bool) (data : Byte) (s : State) : Outcome := regAccess we 6 data s

/-- An access to offset 7 (R108). -/
def execReservedOff7 (we : Bool) (data : Byte) (s : State) : Outcome := regAccess we 7 data s

end Sys2Proof.Machine
end

