-- ==== Sys2Proof/Machine/BusPhase.lean ====
section
/-! DEFINITION. The meanings of the bus phases, format PHASE: SEQ's completion step for each (R126 to R134). -/

namespace Sys2Proof.Machine

/-- PH_START (R126). -/
def execPhStart (s : State) : Outcome :=
  seqComplete .start (fun _ s => s.complete .start .started .start) s

/-- PH_RSTART (R127). -/
def execPhRstart (s : State) : Outcome :=
  seqComplete .rstart (fun _ s => s.complete .rstart .started .rstart) s

/-- PH_SLA_W (R128, R133). -/
def execPhSlaW (frame : Byte) (s : State) : Outcome :=
  seqComplete (.sla frame) (fun t s =>
    match t.addrReply with
    | .ack => s.complete .slawAck (.addrSent .w .ack) (.addr frame .ack)
    | .nak => s.complete .slawNak (.addrSent .w .nak) (.addr frame .nak)
    | .lost => s.completeLost (.addr frame .lost)) s

/-- PH_SLA_R (R129, R133). -/
def execPhSlaR (frame : Byte) (s : State) : Outcome :=
  seqComplete (.sla frame) (fun t s =>
    match t.addrReply with
    | .ack => s.complete .slarAck (.addrSent .r .ack) (.addr frame .ack)
    | .nak => s.complete .slarNak (.addrSent .r .nak) (.addr frame .nak)
    | .lost => s.completeLost (.addr frame .lost)) s

/-- PH_DATA_TX (R130, R133). -/
def execPhDataTx (byte : Byte) (s : State) : Outcome :=
  seqComplete (.dtx byte) (fun t s =>
    match t.dataReply with
    | .ack => s.complete .datawAck (.dataPhase .w .ack) (.dtx byte .ack)
    | .nak => s.complete .datawNak (.dataPhase .w .nak) (.dtx byte .nak)
    | .lost => s.completeLost (.dtx byte .lost)) s

/-- PH_DATA_RX_ACK (R131). -/
def execPhDataRxAck (s : State) : Outcome :=
  seqComplete (.drx true) (fun t s =>
    s.completeReceived t.readByte .datarAck (.dataPhase .r .ack) (.drx t.readByte .ack)) s

/-- PH_DATA_RX_NAK (R132). -/
def execPhDataRxNak (s : State) : Outcome :=
  seqComplete (.drx false) (fun t s =>
    if t.readLost then s.completeReceived t.readByte .arbLost .lost (.drx t.readByte .lost)
    else s.completeReceived t.readByte .datarNak (.dataPhase .r .nak) (.drx t.readByte .nak)) s

/-- PH_STOP (R134). -/
def execPhStop (silent : Bool) (s : State) : Outcome :=
  seqComplete (.stop silent) (fun _ s => s.completeStop silent) s

/-- The level-3 instruction SEQ performs to complete a phase; bit 0 of an address frame selects the
direction (R79). -/
def phaseInstr : Phase → Instr
  | .start => .phStart
  | .rstart => .phRstart
  | .sla frame => if frame.bit 0 then .phSlaR frame else .phSlaW frame
  | .dtx byte => .phDataTx byte
  | .drx acken => if acken then .phDataRxAck else .phDataRxNak
  | .stop silent => .phStop silent

end Sys2Proof.Machine
end

