-- ==== Sys2Proof/Machine/Command.lean ====
section
/-! DEFINITION. The meanings of the commands a CR write spells, format CRW (R77, R107). -/

namespace Sys2Proof.Machine

/-- CMD_DISABLE (R107). -/
def execCmdDisable (v : Byte) (s : State) : Outcome := unlessFaulted s (writeCommand .disable v s)

/-- CMD_ENABLE (R107). -/
def execCmdEnable (v : Byte) (s : State) : Outcome := unlessFaulted s (writeCommand .enable v s)

/-- CMD_START (R107). -/
def execCmdStart (v : Byte) (s : State) : Outcome := unlessFaulted s (writeCommand .start v s)

/-- CMD_STOP (R107). -/
def execCmdStop (v : Byte) (s : State) : Outcome := unlessFaulted s (writeCommand .stop v s)

/-- CMD_CONT_NAK (R107). -/
def execCmdContNak (v : Byte) (s : State) : Outcome := unlessFaulted s (writeCommand .contNak v s)

/-- CMD_CONT_ACK (R107). -/
def execCmdContAck (v : Byte) (s : State) : Outcome := unlessFaulted s (writeCommand .contAck v s)

/-- CMD_START_NOCLR: not admitted (R107). -/
def execCmdStartNoclr (v : Byte) (s : State) : Outcome := unlessFaulted s (writeCommand .startNoclr v s)

/-- CMD_STOP_NOCLR: not admitted (R107). -/
def execCmdStopNoclr (v : Byte) (s : State) : Outcome := unlessFaulted s (writeCommand .stopNoclr v s)

/-- CMD_STOP_START: reserved (R107). -/
def execCmdStopStart (v : Byte) (s : State) : Outcome := unlessFaulted s (writeCommand .stopStart v s)

end Sys2Proof.Machine
end

