-- ==== Sys2Proof/Machine/Eeprom.lean ====
section
/-! DEFINITION. The meanings of the five EepromDevice sequences: their expansions into primitives (R175 to R180; DESIGN CHOICE, log 7). -/

namespace Sys2Proof.Machine

/-- `start(); transmitAddress(DEV, dir)`. -/
def addressDevice (dir : Dir) : List HostOp :=
  [.run .start, .run (.transmitAddress Config.deviceRawAddr dir)]

/-- A sequence begins with no local variables and its expansion as HOST's next work. -/
def beginSequence (ops : List HostOp) (s : State) : Outcome :=
  unlessFaulted s (.next ({ s with out := [] }.push ops))

/-- readByte (R176). -/
def execReadByte (address : Byte) (s : State) : Outcome :=
  beginSequence (addressDevice .w ++ [.run (.transmitByte address)] ++ addressDevice .r ++
    [.run (.receiveByte false), .keepByte, .run .stop, .retByte]) s

/-- writeByte (R177). -/
def execWriteByte (address data : Byte) (s : State) : Outcome :=
  beginSequence (addressDevice .w ++ [.run (.transmitByte address), .run (.transmitByte data), .run .stop,
    .run .waitUntilWriteComplete]) s

/-- One round of the completion poll: an attempt, then the test (R178). -/
def pollOps : List HostOp := addressDevice .w ++ [.run .status, .pollTest]

/-- waitUntilWriteComplete: the body runs at least once (R178). -/
def execWaitUntilWriteComplete (s : State) : Outcome :=
  unlessFaulted s (.next (s.push (pollOps ++ [.retUnit])))

/-- writePage: a bad length is an error value before any bus activity (R179). -/
def execWritePage (startAddress : Byte) (data : List Byte) (s : State) : Outcome :=
  if data.length = 0 ∨ Config.pageSize < data.length then
    unlessFaulted s (.next (s.returns (.error .lengthOutOfRange)))
  else
    beginSequence (addressDevice .w ++ [.run (.transmitByte startAddress)] ++
      data.map (fun d => .run (.transmitByte d)) ++ [.run .stop, .run .waitUntilWriteComplete]) s

/-- The receptions of `count` bytes: all but the last answered ACK, the last NAK (R180). -/
def receiveOps : Nat → List HostOp
  | 0 => []
  | 1 => [.run (.receiveByte false), .keepByte]
  | n + 2 => [.run (.receiveByte true), .keepByte] ++ receiveOps (n + 1)

/-- sequentialRead: a zero count is an error value before any access (R180). -/
def execSequentialRead (startAddress : Byte) (count : Nat) (s : State) : Outcome :=
  if count = 0 then unlessFaulted s (.next (s.returns (.error .countMismatch)))
  else
    beginSequence (addressDevice .w ++ [.run (.transmitByte startAddress)] ++ addressDevice .r ++
      receiveOps count ++ [.run .stop, .retBytes]) s

end Sys2Proof.Machine
end

