-- ==== Sys2Proof/Machine/Primitive.lean ====
section
/-! DEFINITION. The meanings of the seven primitives of I2cMaster: the contract check and the expansion into accesses and waits (R150 to R157; DESIGN CHOICE, log 7). -/

namespace Sys2Proof.Machine

/-- The expansion of `initialize` with the divider `brv` (R150). -/
def initializeOps (brv : Byte) : List HostOp :=
  [.run (.wrSr 0x01), .run (.wrBr brv), .run (.wrCr 0x04), .setInitialized, .retUnit]

/-- initialize: a second call is a contract violation; target 0 draws the divider (R150). -/
def execInitialize (targetFrequencyHz : Nat) (s : State) : Outcome :=
  unlessFaulted s <|
    if s.initialized then .next (s.raise (.contractViolation .alreadyInitialized))
    else if targetFrequencyHz = 0 then .next (s.drawn.push (initializeOps s.freeByte))
    else .next (s.push (initializeOps (dividerFor targetFrequencyHz)))

/-- start (R151). -/
def execStart (s : State) : Outcome :=
  callPrimitive (requireInitialized s) [.run (.wrCr 0xA4), .waitInt, .retUnit] s

/-- stop: the wait is on STO (R152). -/
def execStop (s : State) : Outcome :=
  callPrimitive (requireInitialized s) [.run (.wrCr 0x94), .waitSto, .retUnit] s

/-- status: no precondition (R153). -/
def execStatus (s : State) : Outcome := callPrimitive none [.run .rdSr, .maskStatus] s

/-- transmitAddress (R154). -/
def execTransmitAddress (raw : Byte) (dir : Dir) (s : State) : Outcome :=
  callPrimitive (requireTxn .transmitAddress (s.txn == .started) s)
    [.run (.wrDr (addressFrame raw dir)), .run (.wrCr 0x84), .waitInt, .retUnit] s

/-- transmitByte (R155). -/
def execTransmitByte (data : Byte) (s : State) : Outcome :=
  callPrimitive (requireTxn .transmitByte (mayTransmit s.txn) s)
    [.run (.wrDr data), .run (.wrCr 0x84), .waitInt, .retUnit] s

/-- receiveByte (R156). -/
def execReceiveByte (ackFollowing : Bool) (s : State) : Outcome :=
  callPrimitive (requireTxn .receiveByte (mayReceive s.txn) s)
    [.run (.wrCr (if ackFollowing then 0xC4 else 0x84)), .waitInt, .run .rdDr] s

end Sys2Proof.Machine
end

