-- ==== Sys2Proof/Machine/StatusDecoder.lean ====
section
/-! DEFINITION. The status decoder: the texts, at the spec's defaults, and the meaning of describe (R170, R171). -/

namespace Sys2Proof.Machine

/-- `PHASE_NAME`, an open parameter at its default: the source's names of the codes (R170; UNVERIFIED, log 14). -/
def phaseName : StatusCode → String
  | .start => "START sent"
  | .rstart => "repeated-START sent"
  | .slawAck => "SLA+W ACK"
  | .slawNak => "SLA+W NAK"
  | .datawAck => "data-write ACK"
  | .datawNak => "data-write NAK"
  | .arbLost => "arbitration-lost/NAK"
  | .slarAck => "SLA+R ACK"
  | .slarNak => "SLA+R NAK"
  | .datarAck => "data-read ACK"
  | .datarNak => "data-read NAK"
  | .noInfo => "unknown, raw=0xF8"

/-- One upper-case hexadecimal digit. -/
def hexDigit (n : Nat) : String :=
  String.singleton (if n < 10 then Char.ofNat (48 + n) else Char.ofNat (55 + n))

/-- `UNKNOWN_FMT`, an open parameter at its default (R170; UNVERIFIED, log 14). -/
def unknownFmt (c : Byte) : String := "unknown, raw=0x" ++ hexDigit (c.toNat / 16) ++ hexDigit (c.toNat % 16)

/-- The recognized status codes in the order of R80. -/
def recognizedCodes : List StatusCode :=
  [.start, .rstart, .slawAck, .slawNak, .datawAck, .datawNak, .arbLost, .slarAck, .slarNak, .datarAck, .datarNak]

/-- The recognized code with an 8-bit value, if there is one (R80, R81). -/
def recognize (c : Byte) : Option StatusCode := recognizedCodes.find? fun k => code8 (statusCode k) == c

/-- `describe(code)`: the input is masked, a recognized code gives its name, any other the unknown
message (R170). -/
def describeText (code : Byte) : String :=
  let c := code &&& statusMask
  match recognize c with
  | some k => phaseName k
  | none => unknownFmt c

/-- describe: a pure function, no access (R170). -/
def execDescribe (code : Byte) (s : State) : Outcome :=
  unlessFaulted s (.next (s.returns (.text (describeText code))))

end Sys2Proof.Machine
end

