-- ==== Sys2Proof/Machine/Dispatch.lean ====
section
/-! DEFINITION. One arm per instruction. -/

namespace Sys2Proof.Machine

def exec (i : Instr) (s : State) : Host.Outcome State Fault Refusal :=
  match i with
  | .rdBr => Sys2Proof.Machine.execRdBr s
  | .wrBr d => Sys2Proof.Machine.execWrBr d s
  | .rdSr => Sys2Proof.Machine.execRdSr s
  | .wrSr v => Sys2Proof.Machine.execWrSr v s
  | .rdDr => Sys2Proof.Machine.execRdDr s
  | .wrDr d => Sys2Proof.Machine.execWrDr d s
  | .rdCr => Sys2Proof.Machine.execRdCr s
  | .wrCr v => Sys2Proof.Machine.execWrCr v s
  | .reservedOff2 we data => Sys2Proof.Machine.execReservedOff2 we data s
  | .reservedOff5 we data => Sys2Proof.Machine.execReservedOff5 we data s
  | .reservedOff6 we data => Sys2Proof.Machine.execReservedOff6 we data s
  | .reservedOff7 we data => Sys2Proof.Machine.execReservedOff7 we data s
  | .cmdDisable v => Sys2Proof.Machine.execCmdDisable v s
  | .cmdEnable v => Sys2Proof.Machine.execCmdEnable v s
  | .cmdStart v => Sys2Proof.Machine.execCmdStart v s
  | .cmdStop v => Sys2Proof.Machine.execCmdStop v s
  | .cmdContNak v => Sys2Proof.Machine.execCmdContNak v s
  | .cmdContAck v => Sys2Proof.Machine.execCmdContAck v s
  | .cmdStartNoclr v => Sys2Proof.Machine.execCmdStartNoclr v s
  | .cmdStopNoclr v => Sys2Proof.Machine.execCmdStopNoclr v s
  | .cmdStopStart v => Sys2Proof.Machine.execCmdStopStart v s
  | .phStart => Sys2Proof.Machine.execPhStart s
  | .phRstart => Sys2Proof.Machine.execPhRstart s
  | .phSlaW frame => Sys2Proof.Machine.execPhSlaW frame s
  | .phSlaR frame => Sys2Proof.Machine.execPhSlaR frame s
  | .phDataTx byte => Sys2Proof.Machine.execPhDataTx byte s
  | .phDataRxAck => Sys2Proof.Machine.execPhDataRxAck s
  | .phDataRxNak => Sys2Proof.Machine.execPhDataRxNak s
  | .phStop silent => Sys2Proof.Machine.execPhStop silent s
  | .initializeBus targetFrequencyHz => Sys2Proof.Machine.execInitialize targetFrequencyHz s
  | .start => Sys2Proof.Machine.execStart s
  | .stop => Sys2Proof.Machine.execStop s
  | .status => Sys2Proof.Machine.execStatus s
  | .transmitAddress raw dir => Sys2Proof.Machine.execTransmitAddress raw dir s
  | .transmitByte data => Sys2Proof.Machine.execTransmitByte data s
  | .receiveByte ackFollowing => Sys2Proof.Machine.execReceiveByte ackFollowing s
  | .describe code => Sys2Proof.Machine.execDescribe code s
  | .readByte address => Sys2Proof.Machine.execReadByte address s
  | .writeByte address data => Sys2Proof.Machine.execWriteByte address data s
  | .waitUntilWriteComplete => Sys2Proof.Machine.execWaitUntilWriteComplete s
  | .writePage startAddress data => Sys2Proof.Machine.execWritePage startAddress data s
  | .sequentialRead startAddress count => Sys2Proof.Machine.execSequentialRead startAddress count s

end Sys2Proof.Machine
end

