-- ==== Sys2Proof/Machine/HostOps.lean ====
section
/-! DEFINITION. HOST's moves that are neither words nor instructions: the busy-waits and the bookkeeping of a pseudo-instruction in progress. -/

namespace Sys2Proof.Machine

/-- One read of `wait_until(c)` on CR: HOST reads CR and, unless the value read satisfies `c`, will
read again (R10). Each repetition is one access; none changes a register (R58). -/
def pollCr (c : Byte → Bool) (again : HostOp) (s : State) : Outcome :=
  if c s.cr.toByte then .next (s.readReg .cr) else .next ((s.readReg .cr).push [again])

/-- One read of the wait of R151 and R154 to R156. -/
def execWaitInt (s : State) : Outcome := pollCr (fun v => v.bit 7) .waitInt s

/-- One read of the wait of R152. -/
def execWaitSto (s : State) : Outcome := pollCr (fun v => !v.bit 4) .waitSto s

/-- The end of `initialize` (R150, R36). -/
def execSetInitialized (s : State) : Outcome := .next { s with initialized := true }

/-- `status()` masks the byte it read (R153, R82). -/
def maskValue : HostValue → HostValue
  | .byte b => .byte (b &&& statusMask)
  | .unit => .unit
  | .bytes bs => .bytes bs
  | .text t => .text t
  | .error e => .error e

/-- The end of `status` (R153). -/
def execMaskStatus (s : State) : Outcome := .next (s.returns (maskValue s.result))

/-- The byte a value holds, as a list. -/
def valueBytes : HostValue → List Byte
  | .byte b => [b]
  | .unit => []
  | .bytes bs => bs
  | .text _ => []
  | .error _ => []

/-- The byte just returned becomes a local variable of the sequence (R176, R180). -/
def execKeepByte (s : State) : Outcome := .next { s with out := s.out ++ valueBytes s.result }

/-- `until status() = 0x18`: another round unless the status is SLA+W ACK (R178). -/
def execPollTest (s : State) : Outcome :=
  if s.result = .byte (code8 (statusCode .slawAck)) then .next s else .next (s.push pollOps)

/-- Return nothing. -/
def execRetUnit (s : State) : Outcome := .next (s.returns .unit)

/-- The value of a returned byte: the one byte kept. -/
def keptByte : List Byte → HostValue
  | b :: _ => .byte b
  | [] => .unit

/-- Return the byte kept (R176). -/
def execRetByte (s : State) : Outcome := .next (s.returns (keptByte s.out))

/-- Return the bytes kept (R180). -/
def execRetBytes (s : State) : Outcome := .next (s.returns (.bytes s.out))

end Sys2Proof.Machine
end

