-- ==== Sys2Proof/Machine/Agents.lean ====
section
/-! DEFINITION. The agents' moves: HOST takes its next piece of work, SEQ completes the phase in flight, and which of the two moves. -/

namespace Sys2Proof.Machine

/-- HOST presents a word at its port; the instruction it decodes to runs (R70). -/
def fetchWord (bytes : List Byte) (s : State) : Outcome :=
  match decode bytes with
  | .ok i => exec i s
  | .error e => .refused (.undecodable e)

/-- HOST runs an instruction of its list (R88); a term that stands for no operation is refused (DESIGN CHOICE, log 20). -/
def fetchInstr (i : Instr) (s : State) : Outcome :=
  if i.wf then exec i s else .refused .illFormed

/-- HOST's move: its next piece of work, in program order (R59); with none it does nothing (R217). -/
def hostMove (s : State) : Outcome :=
  match s.todo with
  | [] => .next s
  | .word bytes :: rest => fetchWord bytes { s with todo := rest }
  | .run i :: rest => fetchInstr i { s with todo := rest }
  | .waitInt :: rest => execWaitInt { s with todo := rest }
  | .waitSto :: rest => execWaitSto { s with todo := rest }
  | .setInitialized :: rest => execSetInitialized { s with todo := rest }
  | .maskStatus :: rest => execMaskStatus { s with todo := rest }
  | .keepByte :: rest => execKeepByte { s with todo := rest }
  | .pollTest :: rest => execPollTest { s with todo := rest }
  | .retUnit :: rest => execRetUnit { s with todo := rest }
  | .retByte :: rest => execRetByte { s with todo := rest }
  | .retBytes :: rest => execRetBytes { s with todo := rest }

/-- One step of the block and its host: while a phase is in flight the turn says whether SEQ's
completion comes before HOST's next move (R10, R59, R122; DESIGN CHOICE, log 2); with no phase in flight HOST moves;
a faulted state has no step (R37). -/
def agentMove (s : State) : Outcome :=
  unlessFaulted s <|
    match s.phase with
    | none => hostMove s
    | some k => if (s.turn k).seqFirst then exec (phaseInstr k) s else hostMove s.nextTurn

/-- A turn in which HOST moves. -/
def hostTurn : Turn where
  seqFirst := false
  permits := false
  addrReply := .nak
  dataReply := .nak
  readByte := 0
  readLost := false

/-- The turns that let HOST move next: one is needed only while a phase is in flight. -/
def turnsForHost (s : State) : List Turn :=
  match s.phase with
  | none => s.turns
  | some _ => hostTurn :: s.turns

end Sys2Proof.Machine
end

