-- ==== Sys2Proof/Machine/Step.lean ====
section
/-! DEFINITION. The step, and placing a word where the next step fetches. -/

namespace Sys2Proof.Machine

/-- One step: one agent's move (R59, R122). -/
def step (s : State) : Host.Outcome State Fault Refusal := agentMove s

/-- `s` with the word of `nbits` bits as the next thing HOST presents; a program is loaded from
outside the machine, and this stands for that load (DESIGN CHOICE, log 3). -/
def State.withFetchWord (s : State) (nbits w : Nat) : State :=
  { s with todo := .word (bytesOfWord nbits w) :: s.todo, turns := turnsForHost s }

end Sys2Proof.Machine
end

