-- ==== Sys2Proof/Laws/Decode.lean ====
section
/-! SUPPORT. The decoder and the encoder: fields of the access word, and that decoding gives operations. -/

namespace Sys2Proof

theorem accessWe_accessWord (we : Bool) (off : BitVec 3) (data : Byte) :
    accessWe (accessWord we off data) = we := by
  show ((BitVec.ofBool we ++ off ++ data : BitVec (1 + 3 + 8))).getLsbD 11 = we
  rw [BitVec.getLsbD_append, BitVec.getLsbD_append]
  cases we <;> rfl

theorem accessOff_accessWord (we : Bool) (off : BitVec 3) (data : Byte) :
    accessOff (accessWord we off data) = off := by
  show ((BitVec.ofBool we ++ off ++ data : BitVec (1 + 3 + 8))).extractLsb' 8 3 = off
  refine BitVec.eq_of_getLsbD_eq fun i hi => ?_
  rw [BitVec.getLsbD_extractLsb', BitVec.getLsbD_append, BitVec.getLsbD_append]
  interval_cases i <;> simp

theorem accessData_accessWord (we : Bool) (off : BitVec 3) (data : Byte) :
    accessData (accessWord we off data) = data := by
  show ((BitVec.ofBool we ++ off ++ data : BitVec (1 + 3 + 8))).extractLsb' 0 8 = data
  refine BitVec.eq_of_getLsbD_eq fun i hi => ?_
  rw [BitVec.getLsbD_extractLsb', BitVec.getLsbD_append]
  simp [hi]

/-- The fields of an access word given as its upper four bits and its data byte. -/
theorem accessWe_append (n : BitVec 4) (lo : Byte) : accessWe (n ++ lo) = n.getLsbD 3 := by
  show (n ++ lo : BitVec (4 + 8)).getLsbD 11 = _
  rw [BitVec.getLsbD_append]
  rfl

theorem accessOff_append (n : BitVec 4) (lo : Byte) : accessOff (n ++ lo) = n.extractLsb' 0 3 := by
  show (n ++ lo : BitVec (4 + 8)).extractLsb' 8 3 = _
  refine BitVec.eq_of_getLsbD_eq fun i hi => ?_
  rw [BitVec.getLsbD_extractLsb', BitVec.getLsbD_append]
  interval_cases i <;> simp

theorem accessData_append (n : BitVec 4) (lo : Byte) : accessData (n ++ lo) = lo := by
  show (n ++ lo : BitVec (4 + 8)).extractLsb' 0 8 = lo
  refine BitVec.eq_of_getLsbD_eq fun i hi => ?_
  rw [BitVec.getLsbD_extractLsb', BitVec.getLsbD_append]
  simp [hi]

/-- What two bytes decode to, by the upper byte's four low bits. -/
theorem decode_pair (lo hi : Byte) (h : (hi &&& 0xF0 == 0) = true) :
    decode [lo, hi] = .ok (accessInstr ((hi.extractLsb' 0 4).getLsbD 3) ((hi.extractLsb' 0 4).extractLsb' 0 3) lo) := by
  simp only [decode, h, if_true, decodeAccess, accessWe_append, accessOff_append, accessData_append]

/-- The two bytes of an access word decode to what the word decodes to. -/
theorem decode_accessBytes (w : BitVec 12) : decode (accessBytes w) = .ok (decodeAccess w) := by
  have h1 : (w.extractLsb' 8 4).setWidth 8 &&& 0xF0 = (0 : BitVec 8) := by
    refine BitVec.eq_of_getLsbD_eq fun i hi => ?_
    interval_cases i <;> simp
  have h2 : ((w.extractLsb' 8 4).setWidth 8).extractLsb' 0 4 ++ w.extractLsb' 0 8 = w := by
    refine BitVec.eq_of_getLsbD_eq fun i hi => ?_
    rw [BitVec.getLsbD_append]
    interval_cases i <;> simp
  simp only [decode, accessBytes, h1, h2, BEq.rfl, if_true]

/-- Every value written to CR spells a command it matches (R77, R78). -/
theorem decodeCrw_wf : ∀ v : Byte, (decodeCrw v).wf = true := by decide

theorem decodeAccess_wf (w : BitVec 12) : (decodeAccess w).wf = true := by
  unfold decodeAccess accessInstr
  cases accessWe w <;> split <;> rfl

/-- What decodes is an operation. -/
theorem decode_wf {bs : List Byte} {i : Instr} (h : decode bs = .ok i) : i.wf = true := by
  unfold decode at h
  split at h
  · cases h; exact decodeCrw_wf _
  · split at h
    · cases h; exact decodeAccess_wf _
    · cases h
  · cases h

end Sys2Proof
end

