-- ==== Sys2Proof/Laws/PerInstr.lean ====
section
/-! SUPPORT. Statements about each instruction as syntax: encoding and decoding agree. -/

namespace Sys2Proof.Laws.RoundTrip

/-- Where an operation has a bit pattern of its own, decoding its bytes gives it back (R71 to R78). -/
def Statement (i : Instr) : Prop := i.wf = true → ∀ bs, encode i = some bs → decode bs = .ok i

/-- An access row: its bytes decode by the fields of its word. -/
theorem access {i : Instr} {we : Bool} {off : BitVec 3} {data : Byte}
    (he : encode i = some (accessBytes (accessWord we off data)))
    (hd : ∀ w, accessWe w = we → accessOff w = off → accessData w = data → decodeAccess w = i) : Statement i := by
  intro _ bs h
  rw [he] at h
  cases h
  rw [decode_accessBytes, hd _ (accessWe_accessWord ..) (accessOff_accessWord ..) (accessData_accessWord ..)]

/-- A row without a bit pattern of its own. -/
theorem noWord {i : Instr} (he : encode i = none) : Statement i := by
  intro _ bs h
  rw [he] at h
  cases h

/-- A command row: its value decodes to its command. -/
theorem command {i : Instr} {v : Byte} (cmd : Command) (he : encode i = some [v]) (hc : commandInstr v cmd = i)
    (hd : i.wf = true → decodeCommand v = cmd) : Statement i := by
  intro hw bs h
  rw [he] at h
  cases h
  rw [decode, decodeCrw, hd hw, hc]

theorem rdBr : Statement .rdBr := access rfl (by intro w h1 h2 h3; simp [decodeAccess, accessInstr, h1, h2])
theorem wrBr (d : Byte) : Statement (.wrBr d) := access rfl (by intro w h1 h2 h3; simp [decodeAccess, accessInstr, h1, h2, h3])
theorem rdSr : Statement .rdSr := access rfl (by intro w h1 h2 h3; simp [decodeAccess, accessInstr, h1, h2])
theorem wrSr (v : Byte) : Statement (.wrSr v) := access rfl (by intro w h1 h2 h3; simp [decodeAccess, accessInstr, h1, h2, h3])
theorem rdDr : Statement .rdDr := access rfl (by intro w h1 h2 h3; simp [decodeAccess, accessInstr, h1, h2])
theorem wrDr (d : Byte) : Statement (.wrDr d) := access rfl (by intro w h1 h2 h3; simp [decodeAccess, accessInstr, h1, h2, h3])
theorem rdCr : Statement .rdCr := access rfl (by intro w h1 h2 h3; simp [decodeAccess, accessInstr, h1, h2])
theorem wrCr (v : Byte) : Statement (.wrCr v) := access rfl (by intro w h1 h2 h3; simp [decodeAccess, accessInstr, h1, h2, h3])
theorem reservedOff2 (we : Bool) (data : Byte) : Statement (.reservedOff2 we data) :=
  access rfl (by intro w h1 h2 h3; simp [decodeAccess, accessInstr, h1, h2, h3])
theorem reservedOff5 (we : Bool) (data : Byte) : Statement (.reservedOff5 we data) :=
  access rfl (by intro w h1 h2 h3; simp [decodeAccess, accessInstr, h1, h2, h3])
theorem reservedOff6 (we : Bool) (data : Byte) : Statement (.reservedOff6 we data) :=
  access rfl (by intro w h1 h2 h3; simp [decodeAccess, accessInstr, h1, h2, h3])
theorem reservedOff7 (we : Bool) (data : Byte) : Statement (.reservedOff7 we data) :=
  access rfl (by intro w h1 h2 h3; simp [decodeAccess, accessInstr, h1, h2, h3])
theorem cmdDisable (v : Byte) : Statement (.cmdDisable v) := command .disable rfl rfl (by revert v; decide)
theorem cmdEnable (v : Byte) : Statement (.cmdEnable v) := command .enable rfl rfl (by revert v; decide)
theorem cmdStart (v : Byte) : Statement (.cmdStart v) := command .start rfl rfl (by revert v; decide)
theorem cmdStop (v : Byte) : Statement (.cmdStop v) := command .stop rfl rfl (by revert v; decide)
theorem cmdContNak (v : Byte) : Statement (.cmdContNak v) := command .contNak rfl rfl (by revert v; decide)
theorem cmdContAck (v : Byte) : Statement (.cmdContAck v) := command .contAck rfl rfl (by revert v; decide)
theorem cmdStartNoclr (v : Byte) : Statement (.cmdStartNoclr v) := command .startNoclr rfl rfl (by revert v; decide)
theorem cmdStopNoclr (v : Byte) : Statement (.cmdStopNoclr v) := command .stopNoclr rfl rfl (by revert v; decide)
theorem cmdStopStart (v : Byte) : Statement (.cmdStopStart v) := command .stopStart rfl rfl (by revert v; decide)
theorem phStart : Statement .phStart := noWord rfl
theorem phRstart : Statement .phRstart := noWord rfl
theorem phSlaW (frame : Byte) : Statement (.phSlaW frame) := noWord rfl
theorem phSlaR (frame : Byte) : Statement (.phSlaR frame) := noWord rfl
theorem phDataTx (byte : Byte) : Statement (.phDataTx byte) := noWord rfl
theorem phDataRxAck : Statement .phDataRxAck := noWord rfl
theorem phDataRxNak : Statement .phDataRxNak := noWord rfl
theorem phStop (silent : Bool) : Statement (.phStop silent) := noWord rfl
theorem initializeBus (targetFrequencyHz : Nat) : Statement (.initializeBus targetFrequencyHz) := noWord rfl
theorem start : Statement .start := noWord rfl
theorem stop : Statement .stop := noWord rfl
theorem status : Statement .status := noWord rfl
theorem transmitAddress (raw : Byte) (dir : Dir) : Statement (.transmitAddress raw dir) := noWord rfl
theorem transmitByte (data : Byte) : Statement (.transmitByte data) := noWord rfl
theorem receiveByte (ackFollowing : Bool) : Statement (.receiveByte ackFollowing) := noWord rfl
theorem describe (code : Byte) : Statement (.describe code) := noWord rfl
theorem readByte (address : Byte) : Statement (.readByte address) := noWord rfl
theorem writeByte (address data : Byte) : Statement (.writeByte address data) := noWord rfl
theorem waitUntilWriteComplete : Statement .waitUntilWriteComplete := noWord rfl
theorem writePage (startAddress : Byte) (data : List Byte) : Statement (.writePage startAddress data) := noWord rfl
theorem sequentialRead (startAddress : Byte) (count : Nat) : Statement (.sequentialRead startAddress count) := noWord rfl

end Sys2Proof.Laws.RoundTrip
end

