-- ==== Sys2Proof/Safety.lean ====
section
/-! DEFINITION. What counts as a safe run, in the terms the claims use: the invariants of R43, the legal bus traces of R136 and R138, single-master environments (R123), and runs under a given script of turns. -/

namespace Sys2Proof.Machine

/-- The code a phase's event comes with, row by row of R138. -/
def eventCode : Event → StatusCode
  | .start => .start
  | .rstart => .rstart
  | .addr frame .ack => if frame.bit 0 then .slarAck else .slawAck
  | .addr frame .nak => if frame.bit 0 then .slarNak else .slawNak
  | .addr _ .lost => .arbLost
  | .dtx _ .ack => .datawAck
  | .dtx _ .nak => .datawNak
  | .dtx _ .lost => .arbLost
  | .drx _ .ack => .datarAck
  | .drx _ .nak => .datarNak
  | .drx _ .lost => .arbLost
  | .stop => .noInfo

/-- The transaction state after a phase's event, row by row of R138. -/
def eventTxn : Event → Txn
  | .start => .started
  | .rstart => .started
  | .addr frame .ack => .addrSent (frameDir frame) .ack
  | .addr frame .nak => .addrSent (frameDir frame) .nak
  | .addr _ .lost => .lost
  | .dtx _ .ack => .dataPhase .w .ack
  | .dtx _ .nak => .dataPhase .w .nak
  | .dtx _ .lost => .lost
  | .drx _ .ack => .dataPhase .r .ack
  | .drx _ .nak => .dataPhase .r .nak
  | .drx _ .lost => .lost
  | .stop => .idle

/-- `txn` as a function of CODE while no phase is in flight (R138, consequence). -/
def codeTxn (c : BitVec 5) : Option Txn :=
  if c = statusCode .start then some .started
  else if c = statusCode .rstart then some .started
  else if c = statusCode .slawAck then some (.addrSent .w .ack)
  else if c = statusCode .slawNak then some (.addrSent .w .nak)
  else if c = statusCode .datawAck then some (.dataPhase .w .ack)
  else if c = statusCode .datawNak then some (.dataPhase .w .nak)
  else if c = statusCode .arbLost then some .lost
  else if c = statusCode .slarAck then some (.addrSent .r .ack)
  else if c = statusCode .slarNak then some (.addrSent .r .nak)
  else if c = statusCode .datarAck then some (.dataPhase .r .ack)
  else if c = statusCode .datarNak then some (.dataPhase .r .nak)
  else if c = statusCode .noInfo then some .idle
  else none

/-- A transaction is open on the bus and no STOP is under way: Started, AddrSent, DataPhase. -/
def midTransaction (txn : Txn) : Bool := ownsBus txn && txn != .stopped

/-- A STOP phase is in flight. -/
def stopInFlight : Option Phase → Bool
  | some (.stop _) => true
  | _ => false

/-- The phase in flight is one that R79 selects in `txn`. -/
def phaseFits (txn : Txn) : Option Phase → Bool
  | none => true
  | some .start => startPhase txn == some .start
  | some .rstart => startPhase txn == some .rstart
  | some (.sla _) => txn == .started
  | some (.dtx _) => mayTransmit txn
  | some (.drx _) => mayReceive txn
  | some (.stop _) => txn == .stopped

/-- (I-a) of R43. -/
abbrev invA (s : State) : Prop := s.phase ≠ none → s.cr.int = false ∧ s.cr.en = true

/-- (I-b) of R43. -/
abbrev invB (s : State) : Prop := s.phase = none → (midTransaction s.txn || s.txn == .lost) = true → s.cr.int = true

/-- (I-c) of R43. -/
abbrev invC (s : State) : Prop := s.txn = .idle → s.phase = none → s.cr.int = false ∧ s.cr.sto = false

/-- (I-d) of R43. -/
abbrev invD (s : State) : Prop := s.txn = .stopped ↔ stopInFlight s.phase = true

/-- (I-e) of R43. -/
abbrev invE (s : State) : Prop := s.cr.sto = true ↔ stopInFlight s.phase = true

/-- (I-f) of R43, in the stronger form of R138's consequence. -/
abbrev invF (s : State) : Prop := s.phase = none → codeTxn s.sr.code = some s.txn

/-- The phase in flight was selected by R79 from the txn it is in flight in. -/
abbrev invPhase (s : State) : Prop := phaseFits s.txn s.phase = true

/-- DR holds the operand of the address or data-transmission phase in flight. -/
def operandInDr (dr : Byte) : Option Phase → Bool
  | some (.sla frame) => dr == frame
  | some (.dtx byte) => dr == byte
  | _ => true

/-- The operand sampled from DR at the launch is still in DR while its phase is in flight (R121). -/
abbrev invOperand (s : State) : Prop := operandInDr s.dr s.phase = true

/-- The invariants of R43, the selection of the phase in flight (R79) and its operand (R121). -/
abbrev State.Inv (s : State) : Prop :=
  invA s ∧ invB s ∧ invC s ∧ invD s ∧ invE s ∧ invF s ∧ invPhase s ∧ invOperand s

/-- The event `e` may come next on the bus in the state `t` (R138). -/
def mayFollow (t : Txn) : Event → Bool
  | .start => startPhase t == some .start
  | .rstart => startPhase t == some .rstart
  | .addr _ _ => t == .started
  | .dtx _ _ => mayTransmit t
  | .drx _ _ => mayReceive t
  | .stop => midTransaction t

/-- The state of the bus transaction after a trace that began in `t`. -/
def busAfter (t : Txn) : List Event → Txn
  | [] => t
  | e :: es => busAfter (eventTxn e) es

/-- Every event of the trace may follow what came before it. -/
def legalFrom (t : Txn) : List Event → Bool
  | [] => true
  | e :: es => mayFollow t e && legalFrom (eventTxn e) es

/-- `txn` agrees with the trace: it is the state after the trace, or Idle after a silent STOP that
followed a lost arbitration, or Stopped while a STOP is in flight that is silent exactly when the trace
leaves no transaction open. -/
def traceAgrees (s : State) : Bool :=
  match s.phase with
  | some (.stop silent) => silent == !midTransaction (busAfter .idle s.trace)
  | _ => s.txn == busAfter .idle s.trace || (s.txn == .idle && busAfter .idle s.trace == .lost)

/-- The trace is a legal sequence of bus events (R136, R138) and txn agrees with it. -/
abbrev State.TraceInv (s : State) : Prop :=
  legalFrom .idle s.trace = true ∧ traceAgrees s = true

/-- In this turn the phase completes: SEQ moves and ENV permits it. -/
def grants (t : Turn) : Bool := t.seqFirst && t.permits

/-- What ENV answers for the phase `k` in this turn is what an environment without other masters answers:
never LOST, arbitration never lost while sending a NAK, and a START never waits for the bus
(`ENV_MULTI_MASTER = false`, R123, R205). -/
def singleMaster (k : Phase) (t : Turn) : Bool :=
  t.addrReply != .lost && t.dataReply != .lost && !t.readLost && (k != .start || t.permits)

/-- `n` steps of the machine. -/
abbrev runSteps (n : Nat) (s : State) : Outcome := Host.Core.run Sys2Proof.core n s

/-- One phase of a script: turns in which the phase in flight does not complete, any number, and the
turn in which it does. -/
structure Round where
  waits : List Turn
  last  : Turn
  deriving DecidableEq, Repr

/-- The round does what its fields say. -/
def roundOk (r : Round) : Bool := r.waits.all (fun t => !grants t) && grants r.last

/-- The turns of a script. -/
def scriptTurns (rs : List Round) : List Turn := rs.flatMap fun r => r.waits ++ [r.last]

/-- The events of the receptions of a read: all but the last answered ACK, the last NAK (R180). -/
def receiveEvents : List Byte → List Event
  | [] => []
  | [b] => [.drx b .nak]
  | b :: c :: bs => .drx b .ack :: receiveEvents (c :: bs)

/-- The event of the phase that `start()` launches in `txn`: START when the controller does not own
the bus, else a repeated START (R126, R127). -/
def startEvent (txn : Txn) : Event := if txn = .idle ∨ txn = .lost then .start else .rstart

/-- The event of a poll's next start after an attempt answered `r`: a START once arbitration is lost, else
a repeated START (R126, R127). -/
def restartEvent (r : Reply) : Event := if r = .lost then .start else .rstart

/-- The events of poll attempts that fail, answered by these replies in order, the first start giving
`first` (R178). -/
def attemptEvents (first : Event) : List Reply → List Event
  | [] => []
  | r :: rs => first :: .addr 0xA0 r :: attemptEvents (restartEvent r) rs

/-- The events of a completion poll: the failed attempts, then the one answered ACK (R178). -/
def pollEvents (first : Event) : List Reply → List Event
  | [] => [first, .addr 0xA0 .ack]
  | r :: rs => first :: .addr 0xA0 r :: pollEvents (restartEvent r) rs

/-- The rounds of poll attempts: for each, the round of its start and the round of its address. -/
def attemptRounds (tries : List (Round × Round)) : List Round := tries.flatMap fun p => [p.1, p.2]

/-- The answers to the addresses of poll attempts. -/
def attemptReplies (tries : List (Round × Round)) : List Reply := tries.map fun p => p.2.last.addrReply

/-- Every attempt of a poll's script runs, and its address is answered NAK or LOST, not ACK. -/
def attemptsFail (tries : List (Round × Round)) : Bool :=
  tries.all fun p => roundOk p.1 && roundOk p.2 && p.2.last.addrReply != .ack

/-- A write of `v` to CR launches the phase `k`. -/
def Launches (v : Byte) (s : State) (k : Phase) : Prop := ∃ t, exec (.wrCr v) s = .next t ∧ t.phase = some k

end Sys2Proof.Machine
end

