-- ==== Sys2Proof/Certificates/Slice0/Obligations.lean ====
section
/-! DEFINITION. The statements for the provers. A next state written out in full is also the instruction's frame: every field it does not name is unchanged. The block has no memory of its own (R38, R64), so no statement speaks of one. -/

open Sys2Proof Sys2Proof.Machine

/-! ### Encodings -/

/-- Words written out bit by bit from R72 and R77 decode to their rows. A sanity statement. -/
def Obligations.WrittenWordsDecode : Prop :=
  decode [0b00010010, 0b00001000] = .ok (.wrBr 0x12) ∧
  decode [0b00000001, 0b00001001] = .ok (.wrSr 0x01) ∧
  decode [0b00000000, 0b00000001] = .ok .rdSr ∧
  decode [0b10100000, 0b00001011] = .ok (.wrDr 0xA0) ∧
  decode [0b00000000, 0b00000011] = .ok .rdDr ∧
  decode [0b10100100, 0b00001100] = .ok (.wrCr 0xA4) ∧
  decode [0b01010101, 0b00001010] = .ok (.reservedOff2 true 0x55) ∧
  decode [0b10010100] = .ok (.cmdStop 0x94) ∧
  decode [0b11000100] = .ok (.cmdContAck 0xC4) ∧
  decode [0b00010100] = .ok (.cmdStopNoclr 0x14) ∧
  decode [0b11111011] = .ok (.cmdDisable 0xFB)

/-- Decoding the bytes of an operation gives the operation back, with every operand at every value
(R71 to R78). The two-byte layout of the access word is the model's own (log 6). -/
def Obligations.DecodeOfEncode : Prop := ∀ i : Instr, Laws.RoundTrip.Statement i

/-- Whatever decodes encodes to the same bytes again, except that a read's ignored data field becomes
0x00 (R71): no other bit is dropped. -/
def Obligations.EncodeOfDecode : Prop :=
  ∀ (bs : List Byte) (i : Instr), decode bs = .ok i →
    ∃ ws, encode i = some ws ∧ ws.length = bs.length ∧ ws.getLast? = bs.getLast? ∧
      (ws = bs ∨ i = .rdBr ∨ i = .rdSr ∨ i = .rdDr ∨ i = .rdCr)

/-- Every value written to CR is exactly one command: the one whose mask and match it meets, which is
the one that the order of R78 finds (R77, R78). -/
def Obligations.CommandDecodeAgreesWithTable : Prop :=
  ∀ (v : Byte) (cmd : Command), decodeCommand v = cmd ↔ (commandInstr v cmd).wf = true

/-- R83: the frame is `(raw & 0xFE) | dir`; its low bit is the direction whatever bit 0 of raw is, its
bits 7:1 are the 7-bit address of raw; and the EEPROM's values. -/
def Obligations.AddressFrameCarriesDirection : Prop :=
  (∀ (raw : Byte) (dir : Dir),
    addressFrame raw dir = (raw &&& 0xFE) ||| (match dir with | .w => 0 | .r => 1) ∧
    ((addressFrame raw dir).bit 0 = true ↔ dir = .r) ∧
    frameAddress (addressFrame raw dir) = raw.extractLsb' 1 7) ∧
  addressFrame 0xA0 .w = 0xA0 ∧ addressFrame 0xA0 .r = 0xA1 ∧ addressFrame 0xA1 .w = 0xA0 ∧
  frameAddress 0xA0 = 0x50

/-! ### Level 1: host register accesses -/

/-- R100: RD_BR returns BR at any time, changes nothing else, and after WR_BR returns the value written.
The two-byte layout of its word is the model's own (log 6). -/
def Obligations.RdBrReturnsDivider : Prop :=
  (∀ x : Byte, decode [x, 0x00] = .ok .rdBr) ∧
  (∀ s : State, s.fault = none → exec .rdBr s = .next { s with result := .byte s.br }) ∧
  (∀ (s t : State) (d : Byte), exec (.wrBr d) s = .next t → exec .rdBr t = .next { t with result := .byte d })

/-- R101: WR_BR stores the divider at any time and changes nothing else; a divider of 0 gives `F_SRC / 16`.
The two-byte layout of its word is the model's own (log 6). -/
def Obligations.WrBrStoresDivider : Prop :=
  (∀ d : Byte, decode [d, 0x08] = .ok (.wrBr d)) ∧
  (∀ (s : State) (d : Byte), s.fault = none → exec (.wrBr d) s = .next { s with br := d }) ∧
  (∀ psc : BitVec 2, busClock 0 psc = (Config.fSrc : ℚ) / 16)

/-- R102: RD_SR returns `CODE ++ 0 ++ PSC` at any time and changes nothing else; with the START code
and PSC = 1 the byte is 0x09, masked 0x08; a step that leaves a phase in flight leaves CODE as it was,
so during a phase it is the previous phase's. The two-byte layout of its word is the model's own (log 6). -/
def Obligations.RdSrReturnsCodeAndPrescaler : Prop :=
  (∀ x : Byte, decode [x, 0x01] = .ok .rdSr) ∧
  (∀ s : State, s.fault = none → exec .rdSr s = .next { s with result := .byte (s.sr.code ++ 0#1 ++ s.sr.psc) }) ∧
  (∀ s : State, s.fault = none → s.sr.code = 0b00001 → s.sr.psc = 1 →
    ∃ b, exec .rdSr s = .next { s with result := .byte b } ∧ b = 0x09 ∧ b &&& 0xF8 = 0x08) ∧
  (∀ s t : State, step s = .next t → t.phase ≠ none → t.sr.code = s.sr.code)

/-- R103: WR_SR sets PSC from bits 1:0 and changes nothing else; 0xFD and 0x01 both give PSC = 1,
prescaler factor 4. The two-byte layout of its word is the model's own (log 6). -/
def Obligations.WrSrSetsPrescalerOnly : Prop :=
  (∀ v : Byte, decode [v, 0x09] = .ok (.wrSr v)) ∧
  (∀ (s : State) (v : Byte), s.fault = none →
    exec (.wrSr v) s = .next { s with sr := { code := s.sr.code, psc := v.extractLsb' 0 2 } }) ∧
  (∀ (s : State) (v : Byte), s.fault = none → (v = 0xFD ∨ v = 0x01) →
    exec (.wrSr v) s = .next { s with sr := { code := s.sr.code, psc := 1 } } ∧ prescaler 1 = 4)

/-- R104: RD_DR returns DR when no phase is in flight, the same on a second read; while one is in flight,
a free value, a fresh one each time (log 10), and the machine goes on. No register changes. After a
transmission it returns the byte sent, after one that lost arbitration the free value stored, after a
reception the byte received. The free value is log 10, R133's after a lost arbitration; the two-byte
layout of the word is log 6. -/
def Obligations.RdDrReturnsDataOrDraw : Prop :=
  (∀ x : Byte, decode [x, 0x03] = .ok .rdDr) ∧
  (∀ s : State, s.fault = none → s.phase = none → exec .rdDr s = .next { s with result := .byte s.dr }) ∧
  (∀ (s : State) (k : Phase), s.fault = none → s.phase = some k →
    exec .rdDr s = .next { s with result := .byte (Config.freeByte s.draws), draws := s.draws + 1 }) ∧
  (∀ s t : State, s.phase = none → exec .rdDr s = .next t → exec .rdDr t = .next t) ∧
  (∀ (s t : State) (k : Phase), s.Inv → s.phase = some k → exec (phaseInstr k) s = .next t → t.phase = none →
    match k with
    | .sla b | .dtx b =>
      exec .rdDr t = .next { t with result := .byte (if t.txn = .lost then Config.freeByte (s.draws + 1) else b) }
    | .drx _ => exec .rdDr t = .next { t with result := .byte (s.turn k).readByte }
    | .start | .rstart | .stop _ => exec .rdDr t = .next { t with result := .byte s.dr })

/-- R105: WR_DR faults while a phase is in flight, else faults while INT = 0, else stores the byte; the
last of several writes wins. The two-byte layout of its word is the model's own (log 6). -/
def Obligations.WrDrStoresOrFaults : Prop :=
  (∀ d : Byte, decode [d, 0x0B] = .ok (.wrDr d)) ∧
  (∀ (s : State) (d : Byte), s.fault = none →
    (s.phase ≠ none → exec (.wrDr d) s = .next { s with fault := some .writeDuringPhase }) ∧
    (s.phase = none → s.cr.int = false → exec (.wrDr d) s = .next { s with fault := some .dataWriteWhileFlagClear }) ∧
    (s.phase = none → s.cr.int = true → exec (.wrDr d) s = .next { s with dr := d })) ∧
  (∀ (s t : State) (d e : Byte), s.phase = none → s.cr.int = true → exec (.wrDr d) s = .next t →
    exec (.wrDr e) t = exec (.wrDr e) s)

/-- RD_CR returns INT, ACKEN, STA, STO, 0, EN, 0, 0 at any time and changes nothing else. The spec marks
R106 as derived (from R21 and R107). -/
def Obligations.RdCrReturnsControlByte : Prop :=
  ∀ s : State, s.fault = none → ∃ b : Byte, exec .rdCr s = .next { s with result := .byte b } ∧
    b.bit 7 = s.cr.int ∧ b.bit 6 = s.cr.acken ∧ b.bit 5 = s.cr.sta ∧ b.bit 4 = s.cr.sto ∧ b.bit 3 = false ∧
    b.bit 2 = s.cr.en ∧ b.bit 1 = false ∧ b.bit 0 = false

/-- R108: any access to offset 2, 5, 6 or 7, in either direction and with any data, faults and changes
nothing else. The two-byte layout of the words is the model's own (log 6). -/
def Obligations.ReservedOffsetsFault : Prop :=
  (∀ (s : State) (we : Bool) (data : Byte), s.fault = none →
    exec (.reservedOff2 we data) s = .next { s with fault := some (.reservedOffset 2) } ∧
    exec (.reservedOff5 we data) s = .next { s with fault := some (.reservedOffset 5) } ∧
    exec (.reservedOff6 we data) s = .next { s with fault := some (.reservedOffset 6) } ∧
    exec (.reservedOff7 we data) s = .next { s with fault := some (.reservedOffset 7) }) ∧
  (∀ data : Byte,
    decode [data, 0b0010] = .ok (.reservedOff2 false data) ∧ decode [data, 0b1010] = .ok (.reservedOff2 true data) ∧
    decode [data, 0b0101] = .ok (.reservedOff5 false data) ∧ decode [data, 0b1101] = .ok (.reservedOff5 true data) ∧
    decode [data, 0b0110] = .ok (.reservedOff6 false data) ∧ decode [data, 0b1110] = .ok (.reservedOff6 true data) ∧
    decode [data, 0b0111] = .ok (.reservedOff7 false data) ∧ decode [data, 0b1111] = .ok (.reservedOff7 true data))

/-! ### Level 2: commands -/

/-- A write of `v` to CR is the command that `v` spells, in every state (R70, R78). -/
def Obligations.WrCrActsAsItsCommand : Prop :=
  ∀ (v : Byte) (s : State), exec (.wrCr v) s = exec (decodeCrw v) s

/-- R107: what a write of `v` to CR does in every unfaulted state, in the order of its checks. R107 has
no line for a START in Stopped with no phase in flight, a state that no run reaches (InvKeptByEveryStep,
I-d; log 15): nothing is said of it. The two-byte layout of its word is the model's own (log 6). -/
def Obligations.WrCrFollowsItsRule : Prop :=
  (∀ v : Byte, decode [v, 0x0C] = .ok (.wrCr v)) ∧ (∀ v : Byte, decodeCommand v = decodeCommand (v &&& 0xF4)) ∧
  ∀ (v : Byte) (s : State), s.fault = none →
    (s.phase ≠ none → exec (.wrCr v) s = .next { s with fault := some .writeDuringPhase }) ∧
    (s.phase = none →
      match decodeCommand v with
      | .stopStart | .startNoclr | .stopNoclr =>
        exec (.wrCr v) s = .next { s with fault := some (.unadmittedCommand v) }
      | .disable =>
        exec (.wrCr v) s =
          if s.txn = .idle then .next { s with cr := ⟨s.cr.int, v.bit 6, false, false, false⟩ }
          else .next { s with fault := some .disableDuringTransaction }
      | .enable => exec (.wrCr v) s = .next { s with cr := ⟨s.cr.int, v.bit 6, false, false, true⟩ }
      | .start =>
        match s.txn with
        | .idle | .lost =>
          exec (.wrCr v) s = .next { s with cr := ⟨false, v.bit 6, true, false, true⟩, phase := some .start }
        | .started | .addrSent _ _ | .dataPhase .w _ | .dataPhase .r .nak =>
          exec (.wrCr v) s = .next { s with cr := ⟨false, v.bit 6, true, false, true⟩, phase := some .rstart }
        | .dataPhase .r .ack => exec (.wrCr v) s = .next { s with fault := some (.illegalPhase s.txn .start) }
        | .stopped => True
      | .stop =>
        exec (.wrCr v) s = .next { s with
          cr := ⟨false, v.bit 6, false, true, true⟩, txn := .stopped,
          phase := some (.stop (decide (s.txn = .idle ∨ s.txn = .lost))) }
      | .contNak | .contAck =>
        match s.txn with
        | .started =>
          exec (.wrCr v) s = .next { s with cr := ⟨false, v.bit 6, false, false, true⟩, phase := some (.sla s.dr) }
        | .addrSent .w .ack | .dataPhase .w _ =>
          exec (.wrCr v) s = .next { s with cr := ⟨false, v.bit 6, false, false, true⟩, phase := some (.dtx s.dr) }
        | .addrSent .r .ack | .dataPhase .r .ack =>
          exec (.wrCr v) s = .next { s with
            cr := ⟨false, v.bit 6, false, false, true⟩, phase := some (.drx (v.bit 6)) }
        | .idle | .addrSent _ .nak | .dataPhase .r .nak | .lost | .stopped =>
          exec (.wrCr v) s = .next { s with fault := some (.illegalPhase s.txn (decodeCommand v)) })

/-- CMD_DISABLE in Idle and CMD_ENABLE in any transaction state set EN and ACKEN, clear STA and STO,
leave INT, and launch nothing. -/
def Obligations.EnableAndDisableLaunchNothing : Prop :=
  ∀ (v : Byte) (s : State), s.fault = none → s.phase = none →
    exec (.cmdEnable v) s = .next { s with cr := ⟨s.cr.int, v.bit 6, false, false, true⟩ } ∧
    (s.txn = .idle → exec (.cmdDisable v) s = .next { s with cr := ⟨s.cr.int, v.bit 6, false, false, false⟩ }) ∧
    (s.txn ≠ .idle → exec (.cmdDisable v) s = .next { s with fault := some .disableDuringTransaction })

/-- CMD_START clears INT and launches START when the controller does not own the bus, a repeated START
while a transaction is open; after an acknowledged received byte it is an illegal phase. -/
def Obligations.CmdStartLaunches : Prop :=
  ∀ (v : Byte) (s : State), s.fault = none → s.phase = none →
    (s.txn = .idle ∨ s.txn = .lost → exec (.cmdStart v) s = .next { s with
      cr := ⟨false, v.bit 6, true, false, true⟩, phase := some .start }) ∧
    (midTransaction s.txn = true → s.txn ≠ .dataPhase .r .ack → exec (.cmdStart v) s = .next { s with
      cr := ⟨false, v.bit 6, true, false, true⟩, phase := some .rstart }) ∧
    (s.txn = .dataPhase .r .ack → exec (.cmdStart v) s = .next { s with
      fault := some (.illegalPhase (.dataPhase .r .ack) .start) })

/-- CMD_STOP clears INT, sets STO and txn = Stopped and launches the STOP, silent exactly in Idle and
Lost, from every transaction state. -/
def Obligations.CmdStopLaunches : Prop :=
  ∀ (v : Byte) (s : State), s.fault = none → s.phase = none →
    exec (.cmdStop v) s = .next { s with
      cr := ⟨false, v.bit 6, false, true, true⟩, txn := .stopped,
      phase := some (.stop (decide (s.txn = .idle ∨ s.txn = .lost))) }

/-- CMD_CONT_NAK and CMD_CONT_ACK clear INT and launch the phase that txn selects, with DR and the new
ACKEN sampled at the write; where txn selects none they fault. -/
def Obligations.CmdContLaunches : Prop :=
  ∀ (v : Byte) (s : State) (i : Instr) (cmd : Command), s.fault = none → s.phase = none →
    ((i = .cmdContNak v ∧ cmd = .contNak) ∨ (i = .cmdContAck v ∧ cmd = .contAck)) →
    (s.txn = .started → exec i s = .next { s with
      cr := ⟨false, v.bit 6, false, false, true⟩, phase := some (.sla s.dr) }) ∧
    (s.txn = .addrSent .w .ack ∨ (∃ a, s.txn = .dataPhase .w a) → exec i s = .next { s with
      cr := ⟨false, v.bit 6, false, false, true⟩, phase := some (.dtx s.dr) }) ∧
    (s.txn = .addrSent .r .ack ∨ s.txn = .dataPhase .r .ack → exec i s = .next { s with
      cr := ⟨false, v.bit 6, false, false, true⟩, phase := some (.drx (v.bit 6)) }) ∧
    (s.txn = .idle ∨ (∃ d, s.txn = .addrSent d .nak) ∨ s.txn = .dataPhase .r .nak ∨ s.txn = .lost ∨
        s.txn = .stopped →
      exec i s = .next { s with fault := some (.illegalPhase s.txn cmd) })

/-- The three unadmitted spellings fault with the value written and change nothing else; every command
faults with WriteDuringPhase while a phase is in flight. -/
def Obligations.UnadmittedCommandsFault : Prop :=
  (∀ (v : Byte) (s : State), s.fault = none → s.phase = none →
    exec (.cmdStartNoclr v) s = .next { s with fault := some (.unadmittedCommand v) } ∧
    exec (.cmdStopNoclr v) s = .next { s with fault := some (.unadmittedCommand v) } ∧
    exec (.cmdStopStart v) s = .next { s with fault := some (.unadmittedCommand v) }) ∧
  (∀ (v : Byte) (s : State) (cmd : Command), s.fault = none → s.phase ≠ none →
    exec (commandInstr v cmd) s = .next { s with fault := some .writeDuringPhase })

/-! ### Level 3: bus phases -/

/-- R126: PH_START is launched by CMD_START in Idle and Lost only; where ENV permits it, it completes
with code 0x08, txn = Started, INT = 1 and the event START, DR unchanged. Where ENV does not permit it the turn is used up and nothing
else changes: the turns are the model's own (log 1, log 8), R122 has no step there. -/
def Obligations.PhStartCompletes : Prop :=
  (∀ (v : Byte) (s : State), s.fault = none → s.phase = none →
    (Launches v s .start ↔ decodeCommand v = .start ∧ (s.txn = .idle ∨ s.txn = .lost))) ∧
  (∀ s : State, s.fault = none → s.phase = some .start → (s.turn .start).permits = true →
    exec .phStart s = .next { s with
      cr := { s.cr with int := true }, sr := { s.sr with code := 0b00001 }, txn := .started,
      trace := s.trace ++ [.start], phase := none, turns := s.turns.tail, draws := s.draws + 1 }) ∧
  (∀ s : State, s.fault = none → s.phase = some .start → (s.turn .start).permits = false →
    exec .phStart s = .next { s with turns := s.turns.tail, draws := s.draws + 1 })

/-- R127: PH_RSTART is launched by CMD_START in Started, AddrSent, DataPhase(W, _) and DataPhase(R, NAK)
only; it completes with code 0x10, txn = Started, INT = 1 and the event RSTART, DR unchanged. -/
def Obligations.PhRstartCompletes : Prop :=
  (∀ (v : Byte) (s : State), s.fault = none → s.phase = none →
    (Launches v s .rstart ↔ decodeCommand v = .start ∧
      (s.txn = .started ∨ (∃ d a, s.txn = .addrSent d a) ∨ (∃ a, s.txn = .dataPhase .w a) ∨
        s.txn = .dataPhase .r .nak))) ∧
  (∀ s : State, s.fault = none → s.phase = some .rstart → (s.turn .rstart).permits = true →
    exec .phRstart s = .next { s with
      cr := { s.cr with int := true }, sr := { s.sr with code := 0b00010 }, txn := .started,
      trace := s.trace ++ [.rstart], phase := none, turns := s.turns.tail, draws := s.draws + 1 })

/-- R128: the address phase of a frame is launched by a continue command in Started, with the frame
sampled from DR; PH_SLA_W, bit 0 of the frame 0, completes as ENV answers. On a lost arbitration DR
becomes a free value (R133, log 10). -/
def Obligations.PhSlaWCompletes : Prop :=
  (∀ (v : Byte) (s : State) (frame : Byte), s.fault = none → s.phase = none →
    (Launches v s (.sla frame) ↔
      (decodeCommand v = .contNak ∨ decodeCommand v = .contAck) ∧ s.txn = .started ∧ s.dr = frame)) ∧
  (∀ (s : State) (frame : Byte), frame.bit 0 = false → s.fault = none → s.phase = some (.sla frame) →
    (s.turn (.sla frame)).permits = true →
    match (s.turn (.sla frame)).addrReply with
    | .ack => exec (.phSlaW frame) s = .next { s with
        cr := { s.cr with int := true }, sr := { s.sr with code := 0b00011 }, txn := .addrSent .w .ack,
        trace := s.trace ++ [.addr frame .ack], phase := none, turns := s.turns.tail, draws := s.draws + 1 }
    | .nak => exec (.phSlaW frame) s = .next { s with
        cr := { s.cr with int := true }, sr := { s.sr with code := 0b00100 }, txn := .addrSent .w .nak,
        trace := s.trace ++ [.addr frame .nak], phase := none, turns := s.turns.tail, draws := s.draws + 1 }
    | .lost => exec (.phSlaW frame) s = .next { s with
        cr := { s.cr with int := true }, sr := { s.sr with code := 0b00111 }, txn := .lost,
        dr := Config.freeByte (s.draws + 1),
        trace := s.trace ++ [.addr frame .lost], phase := none, turns := s.turns.tail, draws := s.draws + 2 })

/-- R129: as R128, for a frame with bit 0 set: PH_SLA_R. On a lost arbitration DR becomes a free value
(R133, log 10). -/
def Obligations.PhSlaRCompletes : Prop :=
  (∀ (v : Byte) (s : State) (frame : Byte), s.fault = none → s.phase = none →
    (Launches v s (.sla frame) ↔
      (decodeCommand v = .contNak ∨ decodeCommand v = .contAck) ∧ s.txn = .started ∧ s.dr = frame)) ∧
  (∀ (s : State) (frame : Byte), frame.bit 0 = true → s.fault = none → s.phase = some (.sla frame) →
    (s.turn (.sla frame)).permits = true →
    match (s.turn (.sla frame)).addrReply with
    | .ack => exec (.phSlaR frame) s = .next { s with
        cr := { s.cr with int := true }, sr := { s.sr with code := 0b01000 }, txn := .addrSent .r .ack,
        trace := s.trace ++ [.addr frame .ack], phase := none, turns := s.turns.tail, draws := s.draws + 1 }
    | .nak => exec (.phSlaR frame) s = .next { s with
        cr := { s.cr with int := true }, sr := { s.sr with code := 0b01001 }, txn := .addrSent .r .nak,
        trace := s.trace ++ [.addr frame .nak], phase := none, turns := s.turns.tail, draws := s.draws + 1 }
    | .lost => exec (.phSlaR frame) s = .next { s with
        cr := { s.cr with int := true }, sr := { s.sr with code := 0b00111 }, txn := .lost,
        dr := Config.freeByte (s.draws + 1),
        trace := s.trace ++ [.addr frame .lost], phase := none, turns := s.turns.tail, draws := s.draws + 2 })

/-- R130: a data-transmission phase is launched by a continue command in AddrSent(W, ACK) and
DataPhase(W, _), with the byte sampled from DR; it completes as ENV answers. On a lost arbitration DR
becomes a free value (R133, log 10). -/
def Obligations.PhDataTxCompletes : Prop :=
  (∀ (v : Byte) (s : State) (byte : Byte), s.fault = none → s.phase = none →
    (Launches v s (.dtx byte) ↔
      (decodeCommand v = .contNak ∨ decodeCommand v = .contAck) ∧
        (s.txn = .addrSent .w .ack ∨ s.txn = .dataPhase .w .ack ∨ s.txn = .dataPhase .w .nak) ∧ s.dr = byte)) ∧
  (∀ (s : State) (byte : Byte), s.fault = none → s.phase = some (.dtx byte) → (s.turn (.dtx byte)).permits = true →
    match (s.turn (.dtx byte)).dataReply with
    | .ack => exec (.phDataTx byte) s = .next { s with
        cr := { s.cr with int := true }, sr := { s.sr with code := 0b00101 }, txn := .dataPhase .w .ack,
        trace := s.trace ++ [.dtx byte .ack], phase := none, turns := s.turns.tail, draws := s.draws + 1 }
    | .nak => exec (.phDataTx byte) s = .next { s with
        cr := { s.cr with int := true }, sr := { s.sr with code := 0b00110 }, txn := .dataPhase .w .nak,
        trace := s.trace ++ [.dtx byte .nak], phase := none, turns := s.turns.tail, draws := s.draws + 1 }
    | .lost => exec (.phDataTx byte) s = .next { s with
        cr := { s.cr with int := true }, sr := { s.sr with code := 0b00111 }, txn := .lost,
        dr := Config.freeByte (s.draws + 1),
        trace := s.trace ++ [.dtx byte .lost], phase := none, turns := s.turns.tail, draws := s.draws + 2 })

/-- R131: PH_DATA_RX_ACK is launched by CMD_CONT_ACK in AddrSent(R, ACK) and DataPhase(R, ACK) only; it
puts the byte ENV supplies into DR, with code 0x50 and txn = DataPhase(R, ACK). -/
def Obligations.PhDataRxAckCompletes : Prop :=
  (∀ (v : Byte) (s : State), s.fault = none → s.phase = none →
    (Launches v s (.drx true) ↔
      decodeCommand v = .contAck ∧ (s.txn = .addrSent .r .ack ∨ s.txn = .dataPhase .r .ack))) ∧
  (∀ s : State, s.fault = none → s.phase = some (.drx true) → (s.turn (.drx true)).permits = true →
    exec .phDataRxAck s = .next { s with
      cr := { s.cr with int := true }, sr := { s.sr with code := 0b01010 }, txn := .dataPhase .r .ack,
      dr := (s.turn (.drx true)).readByte, trace := s.trace ++ [.drx (s.turn (.drx true)).readByte .ack],
      phase := none, turns := s.turns.tail, draws := s.draws + 1 })

/-- R132: PH_DATA_RX_NAK is launched by CMD_CONT_NAK in AddrSent(R, ACK) and DataPhase(R, ACK) only; it
puts the byte ENV supplies into DR, with code 0x58 and DataPhase(R, NAK), or code 0x38 and Lost. -/
def Obligations.PhDataRxNakCompletes : Prop :=
  (∀ (v : Byte) (s : State), s.fault = none → s.phase = none →
    (Launches v s (.drx false) ↔
      decodeCommand v = .contNak ∧ (s.txn = .addrSent .r .ack ∨ s.txn = .dataPhase .r .ack))) ∧
  (∀ s : State, s.fault = none → s.phase = some (.drx false) → (s.turn (.drx false)).permits = true →
    if (s.turn (.drx false)).readLost then exec .phDataRxNak s = .next { s with
      cr := { s.cr with int := true }, sr := { s.sr with code := 0b00111 }, txn := .lost,
      dr := (s.turn (.drx false)).readByte, trace := s.trace ++ [.drx (s.turn (.drx false)).readByte .lost],
      phase := none, turns := s.turns.tail, draws := s.draws + 1 }
    else exec .phDataRxNak s = .next { s with
      cr := { s.cr with int := true }, sr := { s.sr with code := 0b01011 }, txn := .dataPhase .r .nak,
      dr := (s.turn (.drx false)).readByte, trace := s.trace ++ [.drx (s.turn (.drx false)).readByte .nak],
      phase := none, turns := s.turns.tail, draws := s.draws + 1 })

/-- R134: PH_STOP is launched by CMD_STOP in any transaction state, silent exactly in Idle and Lost; it
completes with STO = 0, code 0xF8 and txn = Idle, does not set INT, and appends STOP unless silent. -/
def Obligations.PhStopCompletes : Prop :=
  (∀ (v : Byte) (s : State) (silent : Bool), s.fault = none → s.phase = none →
    (Launches v s (.stop silent) ↔
      decodeCommand v = .stop ∧ (silent = true ↔ s.txn = .idle ∨ s.txn = .lost))) ∧
  (∀ (v : Byte) (s t : State), s.phase = none → decodeCommand v = .stop → exec (.wrCr v) s = .next t →
    t.txn = .stopped) ∧
  (∀ (s : State) (silent : Bool), s.fault = none → s.phase = some (.stop silent) →
    (s.turn (.stop silent)).permits = true →
    exec (.phStop silent) s = .next { s with
      cr := { s.cr with sto := false }, sr := { s.sr with code := 0b11111 }, txn := .idle,
      trace := s.trace ++ (if silent then [] else [.stop]), phase := none, turns := s.turns.tail,
      draws := s.draws + 1 })

/-- SEQ's step for a phase that ENV does not permit leaves it in flight and changes no register, and
there is no step for a phase that is not in flight: the model stops by name there (log 8). From R122. -/
def Obligations.PhaseWaitsForItsEnvironment : Prop :=
  (∀ (s : State) (k : Phase), s.fault = none → s.phase = some k → (s.turn k).permits = false →
    exec (phaseInstr k) s = .next { s with turns := s.turns.tail, draws := s.draws + 1 }) ∧
  (∀ (s : State) (k : Phase), s.fault = none → s.phase ≠ some k →
    exec (phaseInstr k) s = .refused .phaseNotInFlight)

/-! ### Pseudo-instructions -/

/-- The call of a primitive whose precondition holds gives HOST its expansion to do next and changes
nothing else (a target of 0 draws the divider). The expansions are R150 to R156's; that they are taken
one access a step is the model's (log 7). -/
def Obligations.PrimitivesExpand : Prop :=
  ∀ s : State, s.fault = none →
    (∀ f : Nat, s.initialized = false → f ≠ 0 → exec (.initializeBus f) s = .next { s with
      todo := [.run (.wrSr 0x01), .run (.wrBr (BitVec.ofNat 8 ((16000000 / f - 16) / 8))), .run (.wrCr 0x04),
        .setInitialized, .retUnit] ++ s.todo }) ∧
    (s.initialized = false → exec (.initializeBus 0) s = .next { s with
      todo := [.run (.wrSr 0x01), .run (.wrBr (Config.freeByte s.draws)), .run (.wrCr 0x04),
        .setInitialized, .retUnit] ++ s.todo, draws := s.draws + 1 }) ∧
    (s.initialized = true → exec .start s = .next { s with
      todo := [.run (.wrCr 0xA4), .waitInt, .retUnit] ++ s.todo }) ∧
    (s.initialized = true → exec .stop s = .next { s with
      todo := [.run (.wrCr 0x94), .waitSto, .retUnit] ++ s.todo }) ∧
    exec .status s = .next { s with todo := [.run .rdSr, .maskStatus] ++ s.todo } ∧
    (∀ (raw : Byte) (dir : Dir), s.initialized = true → s.txn = .started →
      exec (.transmitAddress raw dir) s = .next { s with
        todo := [.run (.wrDr ((raw &&& 0xFE) ||| (match dir with | .w => 0 | .r => 1))), .run (.wrCr 0x84),
          .waitInt, .retUnit] ++ s.todo }) ∧
    (∀ data : Byte, s.initialized = true →
      s.txn = .addrSent .w .ack ∨ s.txn = .dataPhase .w .ack ∨ s.txn = .dataPhase .w .nak →
      exec (.transmitByte data) s = .next { s with
        todo := [.run (.wrDr data), .run (.wrCr 0x84), .waitInt, .retUnit] ++ s.todo }) ∧
    (∀ ackFollowing : Bool, s.initialized = true → s.txn = .addrSent .r .ack ∨ s.txn = .dataPhase .r .ack →
      exec (.receiveByte ackFollowing) s = .next { s with
        todo := [.run (.wrCr (if ackFollowing then 0xC4 else 0x84)), .waitInt, .run .rdDr] ++ s.todo })

/-- A call whose precondition fails faults with the contract violation of its rule before any access,
NotInitialized before CallOrder (R157, R196, R201). -/
def Obligations.ContractViolationsFault : Prop :=
  ∀ s : State, s.fault = none →
    (∀ f : Nat, s.initialized = true →
      exec (.initializeBus f) s = .next { s with fault := some (.contractViolation .alreadyInitialized) }) ∧
    (s.initialized = false → ∀ i : Instr,
      (i = .start ∨ i = .stop ∨ (∃ raw dir, i = .transmitAddress raw dir) ∨ (∃ d, i = .transmitByte d) ∨
        (∃ a, i = .receiveByte a)) →
      exec i s = .next { s with fault := some (.contractViolation .notInitialized) }) ∧
    (s.initialized = true → s.txn ≠ .started → ∀ (raw : Byte) (dir : Dir),
      exec (.transmitAddress raw dir) s = .next { s with
        fault := some (.contractViolation (.callOrder .transmitAddress s.txn)) }) ∧
    (s.initialized = true → s.txn ≠ .addrSent .w .ack → s.txn ≠ .dataPhase .w .ack → s.txn ≠ .dataPhase .w .nak →
      ∀ d : Byte, exec (.transmitByte d) s = .next { s with
        fault := some (.contractViolation (.callOrder .transmitByte s.txn)) }) ∧
    (s.initialized = true → s.txn ≠ .addrSent .r .ack → s.txn ≠ .dataPhase .r .ack →
      ∀ a : Bool, exec (.receiveByte a) s = .next { s with
        fault := some (.contractViolation (.callOrder .receiveByte s.txn)) })

/-- The call of a sequence gives HOST its expansion into primitives to do next, with no byte kept yet
(log 7). -/
def Obligations.SequencesExpand : Prop :=
  ∀ s : State, s.fault = none →
    (∀ a : Byte, exec (.readByte a) s = .next { s with
      out := [],
      todo := [.run .start, .run (.transmitAddress 0xA0 .w), .run (.transmitByte a), .run .start,
        .run (.transmitAddress 0xA0 .r), .run (.receiveByte false), .keepByte, .run .stop, .retByte] ++ s.todo }) ∧
    (∀ a d : Byte, exec (.writeByte a d) s = .next { s with
      out := [],
      todo := [.run .start, .run (.transmitAddress 0xA0 .w), .run (.transmitByte a), .run (.transmitByte d),
        .run .stop, .run .waitUntilWriteComplete] ++ s.todo }) ∧
    exec .waitUntilWriteComplete s = .next { s with
      todo := [.run .start, .run (.transmitAddress 0xA0 .w), .run .status, .pollTest, .retUnit] ++ s.todo } ∧
    (∀ (a : Byte) (data : List Byte), data ≠ [] → data.length ≤ Config.pageSize →
      exec (.writePage a data) s = .next { s with
        out := [],
        todo := [.run .start, .run (.transmitAddress 0xA0 .w), .run (.transmitByte a)] ++
          data.map (fun d => .run (.transmitByte d)) ++ [.run .stop, .run .waitUntilWriteComplete] ++ s.todo }) ∧
    (∀ (a : Byte) (n : Nat), exec (.sequentialRead a (n + 1)) s = .next { s with
        out := [],
        todo := [.run .start, .run (.transmitAddress 0xA0 .w), .run (.transmitByte a), .run .start,
          .run (.transmitAddress 0xA0 .r)] ++
          (List.replicate n [HostOp.run (.receiveByte true), .keepByte]).flatten ++
          [.run (.receiveByte false), .keepByte, .run .stop, .retBytes] ++ s.todo })

/-- R198: the error indications of writePage and sequentialRead are returned values, before any register
access: only what HOST gets back changes. That the checks come before any contract check, in an uninitialized
state too, is deduced (R179, R180, log 21). -/
def Obligations.SequenceErrorsAreValues : Prop :=
  ∀ s : State, s.fault = none →
    (∀ (a : Byte) (data : List Byte), data.length = 0 ∨ Config.pageSize < data.length →
      exec (.writePage a data) s = .next { s with result := .error .lengthOutOfRange }) ∧
    (∀ a : Byte, exec (.sequentialRead a 0) s = .next { s with result := .error .countMismatch })

/-- describe gives each recognized code its name and any other the unknown message with its raw value,
the input masked first; it changes nothing but what HOST gets back. The texts are the spec's defaults
for its open parameters (log 14). -/
def Obligations.DescribeNamesEveryCode : Prop :=
  ∀ (code : Byte) (s : State), s.fault = none →
    ∃ text, exec (.describe code) s = .next { s with result := .text text } ∧
      (∀ p ∈ ([(0x08, "START sent"), (0x10, "repeated-START sent"), (0x18, "SLA+W ACK"), (0x20, "SLA+W NAK"),
          (0x28, "data-write ACK"), (0x30, "data-write NAK"), (0x38, "arbitration-lost/NAK"), (0x40, "SLA+R ACK"),
          (0x48, "SLA+R NAK"), (0x50, "data-read ACK"), (0x58, "data-read NAK")] : List (Byte × String)),
        code &&& 0xF8 = p.1 → text = p.2) ∧
      ((code &&& 0xF8 = 0x00 ∨ 0x60 ≤ code &&& 0xF8) →
        text = "unknown, raw=0x" ++
          ["0", "1", "2", "3", "4", "5", "6", "7", "8", "9", "A", "B", "C", "D", "E", "F"].getD
            ((code &&& 0xF8).toNat / 16) "" ++
          (if (code &&& 0xF8).bit 3 then "8" else "0"))

/-- R150: initialize writes PSC = 1, the divider of its formula (any byte for target 0) and EN = 1, and
sets initialized; a second call is a contract violation; the source's example gives BR = 0x12 and a
bus clock of 100 kHz. -/
def Obligations.InitializeRuns : Prop :=
  (∀ (s : State) (f : Nat) (more : List HostOp), s.fault = none → s.phase = none → s.initialized = false →
    s.todo = .run (.initializeBus f) :: more →
    ∃ (brv : Byte) (d : Nat), (f ≠ 0 → brv = BitVec.ofNat 8 ((16000000 / f - 16) / 8)) ∧
      runSteps 6 s = .next { s with
        cr := ⟨s.cr.int, false, false, false, true⟩, sr := { s.sr with psc := 1 }, br := brv, initialized := true,
        todo := more, result := .unit, draws := d }) ∧
  (∀ (s : State) (f : Nat), s.fault = none → s.initialized = true →
    exec (.initializeBus f) s = .next { s with fault := some (.contractViolation .alreadyInitialized) }) ∧
  (BitVec.ofNat 8 ((16000000 / 100000 - 16) / 8) : Byte) = 0x12 ∧ busClock 0x12 1 = 100000

/-- R151: start launches a START in Idle and Lost and a repeated START otherwise, and returns when INT
reads 1, after any number of polls, with the code of the phase. -/
def Obligations.StartRuns : Prop :=
  ∀ (s : State) (more : List HostOp) (r : Round) (rest : List Turn),
    s.Inv → s.fault = none → s.phase = none → s.initialized = true → s.txn ≠ .dataPhase .r .ack →
    s.todo = .run .start :: more → s.turns = scriptTurns [r] ++ rest → roundOk r = true →
    runSteps (r.waits.length + 5) s = .next { s with
      cr := ⟨true, false, true, false, true⟩,
      sr := { s.sr with code := if s.txn = .idle ∨ s.txn = .lost then 0b00001 else 0b00010 },
      txn := .started, trace := s.trace ++ [if s.txn = .idle ∨ s.txn = .lost then .start else .rstart],
      todo := more, result := .unit, turns := rest, draws := s.draws + (r.waits.length + 1) }

/-- R152: stop is permitted in every transaction state, returns when STO reads 0, after any number of
polls, with INT = 0, code 0xF8 and txn = Idle, and appends STOP unless it came in Idle or Lost. -/
def Obligations.StopRuns : Prop :=
  ∀ (s : State) (more : List HostOp) (r : Round) (rest : List Turn),
    s.fault = none → s.phase = none → s.initialized = true →
    s.todo = .run .stop :: more → s.turns = scriptTurns [r] ++ rest → roundOk r = true →
    runSteps (r.waits.length + 5) s = .next { s with
      cr := ⟨false, false, false, false, true⟩, sr := { s.sr with code := 0b11111 }, txn := .idle,
      trace := s.trace ++ (if s.txn = .idle ∨ s.txn = .lost then [] else [.stop]),
      todo := more, result := .unit, turns := rest, draws := s.draws + (r.waits.length + 1) }

/-- R153: status returns the masked status register, before initialize too, and changes nothing else. -/
def Obligations.StatusRuns : Prop :=
  ∀ (s : State) (more : List HostOp), s.fault = none → s.phase = none → s.todo = .run .status :: more →
    runSteps 3 s = .next { s with todo := more, result := .byte (s.sr.code ++ 0#3) }

/-- R154: transmitAddress sends the frame from Started and returns when INT reads 1, with the code and
the transaction state of ENV's answer; DR holds the frame unless arbitration was lost. -/
def Obligations.TransmitAddressRuns : Prop :=
  ∀ (s : State) (raw frame : Byte) (dir : Dir) (more : List HostOp) (r : Round) (rest : List Turn),
    s.Inv → s.fault = none → s.phase = none → s.initialized = true → s.txn = .started →
    s.todo = .run (.transmitAddress raw dir) :: more → s.turns = scriptTurns [r] ++ rest → roundOk r = true →
    frame = (raw &&& 0xFE) ||| (match dir with | .w => 0 | .r => 1) →
    ∃ (d : Byte) (n : Nat), (r.last.addrReply ≠ .lost → d = frame) ∧
      runSteps (r.waits.length + 6) s = .next { s with
        cr := ⟨true, false, false, false, true⟩,
        sr := { s.sr with code := match dir, r.last.addrReply with
          | .w, .ack => 0b00011
          | .w, .nak => 0b00100
          | .r, .ack => 0b01000
          | .r, .nak => 0b01001
          | _, .lost => 0b00111 },
        dr := d,
        txn := match r.last.addrReply with
          | .ack => .addrSent dir .ack
          | .nak => .addrSent dir .nak
          | .lost => .lost,
        trace := s.trace ++ [.addr frame r.last.addrReply],
        todo := more, result := .unit, turns := rest, draws := n }

/-- R155: transmitByte sends the byte from AddrSent(W, ACK) and DataPhase(W, _) and returns when INT
reads 1, with the code and the transaction state of ENV's answer; DR holds the byte unless arbitration
was lost. -/
def Obligations.TransmitByteRuns : Prop :=
  ∀ (s : State) (data : Byte) (more : List HostOp) (r : Round) (rest : List Turn),
    s.Inv → s.fault = none → s.phase = none → s.initialized = true →
    s.txn = .addrSent .w .ack ∨ s.txn = .dataPhase .w .ack ∨ s.txn = .dataPhase .w .nak →
    s.todo = .run (.transmitByte data) :: more → s.turns = scriptTurns [r] ++ rest → roundOk r = true →
    ∃ (d : Byte) (n : Nat), (r.last.dataReply ≠ .lost → d = data) ∧
      runSteps (r.waits.length + 6) s = .next { s with
        cr := ⟨true, false, false, false, true⟩,
        sr := { s.sr with code := match r.last.dataReply with
          | .ack => 0b00101
          | .nak => 0b00110
          | .lost => 0b00111 },
        dr := d,
        txn := match r.last.dataReply with
          | .ack => .dataPhase .w .ack
          | .nak => .dataPhase .w .nak
          | .lost => .lost,
        trace := s.trace ++ [.dtx data r.last.dataReply],
        todo := more, result := .unit, turns := rest, draws := n }

/-- R156: receiveByte receives a byte from AddrSent(R, ACK) and DataPhase(R, ACK), answers it ACK or NAK
as asked, and returns it, also where arbitration was lost while answering NAK. -/
def Obligations.ReceiveByteRuns : Prop :=
  ∀ (s : State) (ackFollowing : Bool) (more : List HostOp) (r : Round) (rest : List Turn),
    s.fault = none → s.phase = none → s.initialized = true →
    s.txn = .addrSent .r .ack ∨ s.txn = .dataPhase .r .ack →
    s.todo = .run (.receiveByte ackFollowing) :: more → s.turns = scriptTurns [r] ++ rest → roundOk r = true →
    runSteps (r.waits.length + 5) s = .next { s with
      cr := ⟨true, ackFollowing, false, false, true⟩,
      sr := { s.sr with code := if ackFollowing then 0b01010 else if r.last.readLost then 0b00111 else 0b01011 },
      dr := r.last.readByte,
      txn := if ackFollowing then .dataPhase .r .ack else if r.last.readLost then .lost else .dataPhase .r .nak,
      trace := s.trace ++ [.drx r.last.readByte
        (if ackFollowing then .ack else if r.last.readLost then .lost else .nak)],
      todo := more, result := .byte r.last.readByte, turns := rest, draws := s.draws + (r.waits.length + 1) }

/-! ### Sequences, each over any number of polls per wait -/

/-- R176: with a device that answers, readByte returns the byte the device sent and leaves exactly the
trace of the rule, also where the word address is NAKed (R155); the two address frames have direction bits
0 and 1. -/
def Obligations.ReadByteRuns : Prop :=
  ∀ (s : State) (a : Byte) (more : List HostOp) (r1 r2 r3 r4 r5 r6 r7 : Round) (rest : List Turn),
    s.Inv → s.fault = none → s.phase = none → s.initialized = true → s.txn ≠ .dataPhase .r .ack →
    s.todo = .run (.readByte a) :: more → s.turns = scriptTurns [r1, r2, r3, r4, r5, r6, r7] ++ rest →
    [r1, r2, r3, r4, r5, r6, r7].all roundOk = true →
    r2.last.addrReply = .ack → r3.last.dataReply ≠ .lost → r5.last.addrReply = .ack → r6.last.readLost = false →
    ∃ n d, runSteps n s = .next { s with
      cr := ⟨false, false, false, false, true⟩, sr := { s.sr with code := 0b11111 }, dr := r6.last.readByte,
      txn := .idle,
      trace := s.trace ++ [startEvent s.txn, .addr 0xA0 .ack, .dtx a r3.last.dataReply, .rstart, .addr 0xA1 .ack,
        .drx r6.last.readByte .nak, .stop],
      todo := more, out := [r6.last.readByte], result := .byte r6.last.readByte, turns := rest, draws := d }

/-- R178: the completion poll ends with the first attempt that is answered ACK, after any number of
attempts answered NAK or LOST; it sends only starts and addresses, and leaves the transaction open. After
failed attempts alone it is back at its start (DR a free value where the last one lost arbitration, log 10). -/
def Obligations.PollEndsExactlyOnAck : Prop :=
  ∀ (s : State) (more : List HostOp) (tries : List (Round × Round)) (rest : List Turn),
    s.Inv → s.fault = none → s.phase = none → s.initialized = true → s.txn ≠ .dataPhase .r .ack →
    s.todo = .run .waitUntilWriteComplete :: more → attemptsFail tries = true →
    (∀ r1 r2 : Round, roundOk r1 = true → roundOk r2 = true → r2.last.addrReply = .ack →
      s.turns = scriptTurns (attemptRounds tries ++ [r1, r2]) ++ rest →
      ∃ n d, runSteps n s = .next { s with
        cr := ⟨true, false, false, false, true⟩, sr := { s.sr with code := 0b00011 }, dr := 0xA0,
        txn := .addrSent .w .ack, trace := s.trace ++ pollEvents (startEvent s.txn) (attemptReplies tries),
        todo := more, result := .unit, turns := rest, draws := d }) ∧
    (∀ r : Reply, s.turns = scriptTurns (attemptRounds tries) ++ rest → (attemptReplies tries).getLast? = some r →
      ∃ n d v b, (r = .nak → b = 0xA0) ∧ runSteps n s = .next { s with
        cr := ⟨true, false, false, false, true⟩,
        sr := { s.sr with code := if r = .lost then 0b00111 else 0b00100 }, dr := b,
        txn := if r = .lost then .lost else .addrSent .w .nak,
        trace := s.trace ++ attemptEvents (startEvent s.txn) (attemptReplies tries),
        todo := [.run .start, .run (.transmitAddress 0xA0 .w), .run .status, .pollTest, .retUnit] ++ more,
        result := v, turns := rest, draws := d })

/-- R177: writeByte sends the word address and the byte in one transaction with its own STOP, a NAKed
byte not reported, then polls until the device answers again, and leaves that transaction open. -/
def Obligations.WriteByteRuns : Prop :=
  ∀ (s : State) (a b : Byte) (more : List HostOp) (r1 r2 r3 r4 r5 r6 r7 : Round) (tries : List (Round × Round))
    (rest : List Turn),
    s.Inv → s.fault = none → s.phase = none → s.initialized = true → s.txn ≠ .dataPhase .r .ack →
    s.todo = .run (.writeByte a b) :: more →
    s.turns = scriptTurns ([r1, r2, r3, r4, r5] ++ attemptRounds tries ++ [r6, r7]) ++ rest →
    [r1, r2, r3, r4, r5, r6, r7].all roundOk = true → attemptsFail tries = true →
    r2.last.addrReply = .ack → r3.last.dataReply ≠ .lost → r4.last.dataReply ≠ .lost → r7.last.addrReply = .ack →
    ∃ n d, runSteps n s = .next { s with
      cr := ⟨true, false, false, false, true⟩, sr := { s.sr with code := 0b00011 }, dr := 0xA0,
      txn := .addrSent .w .ack,
      trace := s.trace ++ [startEvent s.txn, .addr 0xA0 .ack, .dtx a r3.last.dataReply, .dtx b r4.last.dataReply,
        .stop] ++ pollEvents .start (attemptReplies tries),
      todo := more, out := [], result := .unit, turns := rest, draws := d }

/-- R179: writePage sends all its bytes in order in one transaction, with a single STOP and a single
completion poll. -/
def Obligations.WritePageRuns : Prop :=
  ∀ (s : State) (a : Byte) (data : List Byte) (more : List HostOp) (r1 r2 r3 r4 r5 r6 : Round) (sends : List Round)
    (tries : List (Round × Round)) (rest : List Turn),
    s.Inv → s.fault = none → s.phase = none → s.initialized = true → s.txn ≠ .dataPhase .r .ack →
    data ≠ [] → data.length ≤ Config.pageSize → sends.length = data.length →
    s.todo = .run (.writePage a data) :: more →
    s.turns = scriptTurns ([r1, r2, r3] ++ sends ++ [r4] ++ attemptRounds tries ++ [r5, r6]) ++ rest →
    ([r1, r2, r3, r4, r5, r6] ++ sends).all roundOk = true → attemptsFail tries = true →
    r2.last.addrReply = .ack → r3.last.dataReply ≠ .lost → (∀ r ∈ sends, r.last.dataReply ≠ .lost) →
    r6.last.addrReply = .ack →
    ∃ n d, runSteps n s = .next { s with
      cr := ⟨true, false, false, false, true⟩, sr := { s.sr with code := 0b00011 }, dr := 0xA0,
      txn := .addrSent .w .ack,
      trace := s.trace ++ [startEvent s.txn, .addr 0xA0 .ack, .dtx a r3.last.dataReply] ++
        List.zipWith (fun b r => .dtx b r.last.dataReply) data sends ++ [.stop] ++ pollEvents .start (attemptReplies tries),
      todo := more, out := [], result := .unit, turns := rest, draws := d }

/-- R180: sequentialRead returns the count bytes the device sent, all but the last answered ACK and the
last NAK, in one transaction, also where the word address is NAKed (R155). -/
def Obligations.SequentialReadRuns : Prop :=
  ∀ (s : State) (a : Byte) (count : Nat) (more : List HostOp) (r1 r2 r3 r4 r5 r6 : Round) (reads : List Round)
    (rest : List Turn),
    s.Inv → s.fault = none → s.phase = none → s.initialized = true → s.txn ≠ .dataPhase .r .ack →
    reads ≠ [] → reads.length = count → s.todo = .run (.sequentialRead a count) :: more →
    s.turns = scriptTurns ([r1, r2, r3, r4, r5] ++ reads ++ [r6]) ++ rest →
    ([r1, r2, r3, r4, r5, r6] ++ reads).all roundOk = true →
    r2.last.addrReply = .ack → r3.last.dataReply ≠ .lost → r5.last.addrReply = .ack →
    (∀ r ∈ reads, r.last.readLost = false) →
    ∃ n d, runSteps n s = .next { s with
      cr := ⟨false, false, false, false, true⟩, sr := { s.sr with code := 0b11111 },
      dr := (reads.map fun r => r.last.readByte).getLastD 0, txn := .idle,
      trace := s.trace ++ [startEvent s.txn, .addr 0xA0 .ack, .dtx a r3.last.dataReply, .rstart, .addr 0xA1 .ack] ++
        receiveEvents (reads.map fun r => r.last.readByte) ++ [.stop],
      todo := more, out := reads.map fun r => r.last.readByte,
      result := .bytes (reads.map fun r => r.last.readByte), turns := rest, draws := d }

/-- A readByte whose device does not answer ends in the contract violation of transmitByte, with the
bus still owned and no STOP sent, and the model has no further step (R176, R193, R197). -/
def Obligations.ReadByteWithoutDeviceFaults : Prop :=
  ∀ (s : State) (a : Byte) (more : List HostOp) (r1 r2 : Round) (rest : List Turn),
    s.Inv → s.fault = none → s.phase = none → s.initialized = true → s.txn ≠ .dataPhase .r .ack →
    s.todo = .run (.readByte a) :: more → s.turns = scriptTurns [r1, r2] ++ rest →
    roundOk r1 = true → roundOk r2 = true → r2.last.addrReply = .nak →
    ∃ n t, runSteps n s = .next t ∧ t.txn = .addrSent .w .nak ∧
      t.trace = s.trace ++ [startEvent s.txn, .addr 0xA0 .nak] ∧
      t.fault = some (.contractViolation (.callOrder .transmitByte (.addrSent .w .nak))) ∧
      runSteps (n + 1) s = .fault (.contractViolation (.callOrder .transmitByte (.addrSent .w .nak)))

/-- A busy-wait whose phase does not complete goes on through every number of turns: no fault, no
timeout, no register changed, the same wait still to do (R199, R10). -/
def Obligations.BusyWaitGoesOnForever : Prop :=
  ∀ (s : State) (k : Phase) (op : HostOp) (more : List HostOp) (ws rest : List Turn),
    s.fault = none → s.phase = some k →
    (op = .waitInt ∧ s.cr.int = false) ∨ (op = .waitSto ∧ s.cr.sto = true) →
    s.todo = op :: more → s.turns = ws ++ rest → (∀ w ∈ ws, grants w = false) →
    ∃ v, runSteps ws.length s = .next { s with result := v, turns := rest, draws := s.draws + ws.length }

/-! ### The whole machine -/

/-- R197: a faulted state has no step of any kind, and a fault is precise: the instruction that raised
it changed no other field. That raising is a next state, and that a faulted state answers the outcome
`fault` with the recorded reason, is deduced from R196 and R197 (log 4). -/
def Obligations.FaultsAreTerminalAndPrecise : Prop :=
  (∀ (s : State) (r : Fault), s.fault = some r → (∀ i : Instr, exec i s = .fault r) ∧ step s = .fault r) ∧
  (∀ (i : Instr) (s t : State) (r : Fault), exec i s = .next t → t.fault = some r → t = { s with fault := some r })

/-- A step is one agent's move. With no phase in flight, or in a turn that is HOST's, it runs the
instruction that HOST's word decodes to, or the one HOST calls; in a turn that is SEQ's it runs the
completion of the phase in flight; and a word placed by withFetchWord runs next (log 2, log 3). -/
def Obligations.StepRunsDecodedInstruction : Prop :=
  (∀ (s : State) (bs : List Byte) (i : Instr) (more : List HostOp), s.fault = none →
    s.todo = .word bs :: more → decode bs = .ok i → i.wf = true →
    (s.phase = none → step s = exec i { s with todo := more }) ∧
    (∀ k, s.phase = some k → (s.turn k).seqFirst = false →
      step s = exec i { s with todo := more, turns := s.turns.tail, draws := s.draws + 1 })) ∧
  (∀ (s : State) (i : Instr) (more : List HostOp), s.fault = none → s.todo = .run i :: more → i.wf = true →
    (s.phase = none → step s = exec i { s with todo := more }) ∧
    (∀ k, s.phase = some k → (s.turn k).seqFirst = false →
      step s = exec i { s with todo := more, turns := s.turns.tail, draws := s.draws + 1 })) ∧
  (∀ (s : State) (k : Phase), s.fault = none → s.phase = some k → (s.turn k).seqFirst = true →
    step s = exec (phaseInstr k) s) ∧
  (∀ (s : State) (nbits w : Nat) (i : Instr), s.fault = none → decodeTableWord nbits w = some i →
    (s.phase = none → step (s.withFetchWord nbits w) = exec i s) ∧
    (s.phase ≠ none → step (s.withFetchWord nbits w) = exec i { s with draws := s.draws + 1 }))

/-- The invariants of R43, that the phase in flight is one R79 selects, and that DR holds its operand,
are kept by every step. The spec marks R43 as derived. I-f is taken in the stronger form of R138's
consequence, with no premise on INT: at rest CODE is one of twelve values. That rests on the block's never
showing a bus-error or slave-mode code, the blind spot U9, unsafe (log 17). -/
def Obligations.InvKeptByEveryStep : Prop :=
  ∀ s t : State, s.Inv → step s = .next t → t.Inv

/-- Every step keeps the trace a legal sequence of bus events with which txn agrees: an address only
after a start, data only after an acknowledged address of its direction, a STOP only where the
controller owns the bus (R136, R138). -/
def Obligations.TraceStaysLegal : Prop :=
  ∀ s t : State, s.Inv → s.TraceInv → step s = .next t → t.TraceInv

/-- The reset state meets both invariants. -/
def Obligations.ResetMeetsInvariants : Prop := State.reset.Inv ∧ State.reset.TraceInv

/-- R215: after reset the registers read 0x00, 0xF8, 0xFF and 0x00, txn is Idle, no phase is in flight,
the trace is empty, nothing is initialized or faulted, and the machine waits for HOST. The values are
the spec's own decision D10 (log 11); that HOST has no work at reset and a step then changes nothing is the
model's own (log 3). -/
def Obligations.ResetState : Prop :=
  exec .rdCr State.reset = .next { State.reset with result := .byte 0x00 } ∧
  exec .rdSr State.reset = .next { State.reset with result := .byte 0xF8 } ∧
  exec .rdDr State.reset = .next { State.reset with result := .byte 0xFF } ∧
  exec .rdBr State.reset = .next { State.reset with result := .byte 0x00 } ∧
  State.reset.txn = .idle ∧ State.reset.phase = none ∧ State.reset.trace = [] ∧
  State.reset.initialized = false ∧ State.reset.fault = none ∧ step State.reset = .next State.reset

/-- The trace only grows, at its end, by at most one event a step, and only where a phase that was in
flight has completed (R63, R124). -/
def Obligations.TraceGrowsByCompletionsOnly : Prop :=
  ∀ s t : State, step s = .next t →
    t.trace = s.trace ∨ (s.phase ≠ none ∧ t.phase = none ∧ ∃ e, t.trace = s.trace ++ [e])

/-- While a phase stays in flight CR, CODE, DR, txn, the phase with its sampled operands and the trace
keep their values, whatever HOST does; a phase in flight is never replaced by another (R121, R125; BR
and PSC may be written, log 22). -/
def Obligations.InFlightStateIsFrozen : Prop :=
  ∀ (s t : State) (k : Phase), s.phase = some k → step s = .next t →
    t.phase = none ∨
      (t.phase = some k ∧ t.cr = s.cr ∧ t.sr.code = s.sr.code ∧ t.dr = s.dr ∧ t.txn = s.txn ∧ t.trace = s.trace)

/-- The order of a transaction: AddrSent is entered from Started only, DataPhase from an acknowledged
address or a data phase of the same direction only, Started only where a START or a repeated START was in
flight, Stopped only with the STOP it launches, Idle from Stopped only, Lost from an address or a data
phase only (R135, R136, R138). -/
def Obligations.TransactionOrder : Prop :=
  ∀ s t : State, s.Inv → step s = .next t → t.txn ≠ s.txn →
    match t.txn with
    | .addrSent _ _ => s.txn = .started
    | .dataPhase d _ => s.txn = .addrSent d .ack ∨ s.txn = .dataPhase d .ack ∨ (d = .w ∧ s.txn = .dataPhase d .nak)
    | .started => s.phase = some .start ∨ s.phase = some .rstart
    | .stopped => t.phase = some (.stop (decide (s.txn = .idle ∨ s.txn = .lost)))
    | .idle => s.txn = .stopped
    | .lost => s.txn = .started ∨ mayTransmit s.txn = true ∨ mayReceive s.txn = true

/-- In an environment without other masters no operation loses arbitration, and a START in flight
completes in the first turn that is SEQ's: it never waits for the bus (R123, R132, R205). -/
def Obligations.SingleMasterNeverLoses : Prop :=
  (∀ (i : Instr) (s t : State), i.wf = true → (∀ k, s.phase = some k → singleMaster k (s.turn k) = true) →
    exec i s = .next t → t.txn = .lost → s.txn = .lost) ∧
  (∀ s : State, s.fault = none → s.phase = some .start → singleMaster .start (s.turn .start) = true →
    (s.turn .start).seqFirst = true →
    step s = .next { s with
      cr := { s.cr with int := true }, sr := { s.sr with code := 0b00001 }, txn := .started,
      trace := s.trace ++ [.start], phase := none, turns := s.turns.tail, draws := s.draws + 1 })

/-- R42 (b): the controller owns the bus exactly in Started, AddrSent, DataPhase and Stopped; a launched STOP
is silent exactly when it did not (R121). Ownership ends only where a phase completes, in Idle or Lost, and
begins only where a START completes, or with Stopped at the launch of a silent STOP (by txn alone, log 24). -/
def Obligations.BusOwnershipFollowsTxn : Prop :=
  (∀ txn : Txn, ownsBus txn = true ↔
    txn = .started ∨ (∃ d a, txn = .addrSent d a) ∨ (∃ d a, txn = .dataPhase d a) ∨ txn = .stopped) ∧
  (∀ (v : Byte) (s : State) (silent : Bool), s.fault = none → s.phase = none → Launches v s (.stop silent) →
    silent = !ownsBus s.txn) ∧
  (∀ s t : State, step s = .next t → ownsBus s.txn = true → ownsBus t.txn = false →
    s.phase ≠ none ∧ t.phase = none ∧ (t.txn = .idle ∨ t.txn = .lost)) ∧
  (∀ s t : State, s.Inv → step s = .next t → ownsBus s.txn = false → ownsBus t.txn = true →
    (s.phase = some .start ∧ t.txn = .started) ∨ (t.txn = .stopped ∧ t.phase = some (.stop true)))

/-- The trace is write-only for the block: with ENV's answer given, an operation does the same to two
states that differ in the trace alone (R35). -/
def Obligations.TraceIsWriteOnly : Prop :=
  ∀ (i : Instr) (s : State) (past : List Event), s.turns ≠ [] →
    match exec i s with
    | .next t => ∃ new, t.trace = s.trace ++ new ∧
        exec i { s with trace := past } = .next { t with trace := past ++ new }
    | .fault r => exec i { s with trace := past } = .fault r
    | .refused r => exec i { s with trace := past } = .refused r
end

