-- ==== Sys2Proof/Laws/State.lean ====
section
/-! SUPPORT. One lemma per field per named update of the state. -/

namespace Sys2Proof.Machine

section
variable (s : State) (r : Fault)

@[simp] theorem State.raise_cr : (s.raise r).cr = s.cr := rfl
@[simp] theorem State.raise_sr : (s.raise r).sr = s.sr := rfl
@[simp] theorem State.raise_dr : (s.raise r).dr = s.dr := rfl
@[simp] theorem State.raise_br : (s.raise r).br = s.br := rfl
@[simp] theorem State.raise_txn : (s.raise r).txn = s.txn := rfl
@[simp] theorem State.raise_phase : (s.raise r).phase = s.phase := rfl
@[simp] theorem State.raise_trace : (s.raise r).trace = s.trace := rfl
@[simp] theorem State.raise_initialized : (s.raise r).initialized = s.initialized := rfl
@[simp] theorem State.raise_fault : (s.raise r).fault = some r := rfl
@[simp] theorem State.raise_todo : (s.raise r).todo = s.todo := rfl
@[simp] theorem State.raise_out : (s.raise r).out = s.out := rfl
@[simp] theorem State.raise_result : (s.raise r).result = s.result := rfl
@[simp] theorem State.raise_turns : (s.raise r).turns = s.turns := rfl
@[simp] theorem State.raise_draws : (s.raise r).draws = s.draws := rfl

end

section
variable (s : State) (v : HostValue)

@[simp] theorem State.returns_cr : (s.returns v).cr = s.cr := rfl
@[simp] theorem State.returns_sr : (s.returns v).sr = s.sr := rfl
@[simp] theorem State.returns_dr : (s.returns v).dr = s.dr := rfl
@[simp] theorem State.returns_br : (s.returns v).br = s.br := rfl
@[simp] theorem State.returns_txn : (s.returns v).txn = s.txn := rfl
@[simp] theorem State.returns_phase : (s.returns v).phase = s.phase := rfl
@[simp] theorem State.returns_trace : (s.returns v).trace = s.trace := rfl
@[simp] theorem State.returns_initialized : (s.returns v).initialized = s.initialized := rfl
@[simp] theorem State.returns_fault : (s.returns v).fault = s.fault := rfl
@[simp] theorem State.returns_todo : (s.returns v).todo = s.todo := rfl
@[simp] theorem State.returns_out : (s.returns v).out = s.out := rfl
@[simp] theorem State.returns_result : (s.returns v).result = v := rfl
@[simp] theorem State.returns_turns : (s.returns v).turns = s.turns := rfl
@[simp] theorem State.returns_draws : (s.returns v).draws = s.draws := rfl

end

section
variable (s : State) (ops : List HostOp)

@[simp] theorem State.push_cr : (s.push ops).cr = s.cr := rfl
@[simp] theorem State.push_sr : (s.push ops).sr = s.sr := rfl
@[simp] theorem State.push_dr : (s.push ops).dr = s.dr := rfl
@[simp] theorem State.push_br : (s.push ops).br = s.br := rfl
@[simp] theorem State.push_txn : (s.push ops).txn = s.txn := rfl
@[simp] theorem State.push_phase : (s.push ops).phase = s.phase := rfl
@[simp] theorem State.push_trace : (s.push ops).trace = s.trace := rfl
@[simp] theorem State.push_initialized : (s.push ops).initialized = s.initialized := rfl
@[simp] theorem State.push_fault : (s.push ops).fault = s.fault := rfl
@[simp] theorem State.push_todo : (s.push ops).todo = ops ++ s.todo := rfl
@[simp] theorem State.push_out : (s.push ops).out = s.out := rfl
@[simp] theorem State.push_result : (s.push ops).result = s.result := rfl
@[simp] theorem State.push_turns : (s.push ops).turns = s.turns := rfl
@[simp] theorem State.push_draws : (s.push ops).draws = s.draws := rfl

end

section
variable (s : State)

@[simp] theorem State.drawn_cr : (s.drawn).cr = s.cr := rfl
@[simp] theorem State.drawn_sr : (s.drawn).sr = s.sr := rfl
@[simp] theorem State.drawn_dr : (s.drawn).dr = s.dr := rfl
@[simp] theorem State.drawn_br : (s.drawn).br = s.br := rfl
@[simp] theorem State.drawn_txn : (s.drawn).txn = s.txn := rfl
@[simp] theorem State.drawn_phase : (s.drawn).phase = s.phase := rfl
@[simp] theorem State.drawn_trace : (s.drawn).trace = s.trace := rfl
@[simp] theorem State.drawn_initialized : (s.drawn).initialized = s.initialized := rfl
@[simp] theorem State.drawn_fault : (s.drawn).fault = s.fault := rfl
@[simp] theorem State.drawn_todo : (s.drawn).todo = s.todo := rfl
@[simp] theorem State.drawn_out : (s.drawn).out = s.out := rfl
@[simp] theorem State.drawn_result : (s.drawn).result = s.result := rfl
@[simp] theorem State.drawn_turns : (s.drawn).turns = s.turns := rfl
@[simp] theorem State.drawn_draws : (s.drawn).draws = s.draws + 1 := rfl

end

section
variable (s : State)

@[simp] theorem State.nextTurn_cr : (s.nextTurn).cr = s.cr := rfl
@[simp] theorem State.nextTurn_sr : (s.nextTurn).sr = s.sr := rfl
@[simp] theorem State.nextTurn_dr : (s.nextTurn).dr = s.dr := rfl
@[simp] theorem State.nextTurn_br : (s.nextTurn).br = s.br := rfl
@[simp] theorem State.nextTurn_txn : (s.nextTurn).txn = s.txn := rfl
@[simp] theorem State.nextTurn_phase : (s.nextTurn).phase = s.phase := rfl
@[simp] theorem State.nextTurn_trace : (s.nextTurn).trace = s.trace := rfl
@[simp] theorem State.nextTurn_initialized : (s.nextTurn).initialized = s.initialized := rfl
@[simp] theorem State.nextTurn_fault : (s.nextTurn).fault = s.fault := rfl
@[simp] theorem State.nextTurn_todo : (s.nextTurn).todo = s.todo := rfl
@[simp] theorem State.nextTurn_out : (s.nextTurn).out = s.out := rfl
@[simp] theorem State.nextTurn_result : (s.nextTurn).result = s.result := rfl
@[simp] theorem State.nextTurn_turns : (s.nextTurn).turns = s.turns.tail := rfl
@[simp] theorem State.nextTurn_draws : (s.nextTurn).draws = s.draws + 1 := rfl

end

section
variable (s : State) (k : Phase) (c : Cr)

@[simp] theorem State.launch_cr : (s.launch k c).cr = c := rfl
@[simp] theorem State.launch_sr : (s.launch k c).sr = s.sr := rfl
@[simp] theorem State.launch_dr : (s.launch k c).dr = s.dr := rfl
@[simp] theorem State.launch_br : (s.launch k c).br = s.br := rfl
@[simp] theorem State.launch_txn : (s.launch k c).txn = s.txn := rfl
@[simp] theorem State.launch_phase : (s.launch k c).phase = some k := rfl
@[simp] theorem State.launch_trace : (s.launch k c).trace = s.trace := rfl
@[simp] theorem State.launch_initialized : (s.launch k c).initialized = s.initialized := rfl
@[simp] theorem State.launch_fault : (s.launch k c).fault = s.fault := rfl
@[simp] theorem State.launch_todo : (s.launch k c).todo = s.todo := rfl
@[simp] theorem State.launch_out : (s.launch k c).out = s.out := rfl
@[simp] theorem State.launch_result : (s.launch k c).result = s.result := rfl
@[simp] theorem State.launch_turns : (s.launch k c).turns = s.turns := rfl
@[simp] theorem State.launch_draws : (s.launch k c).draws = s.draws := rfl

end

section
variable (s : State) (code : StatusCode) (txn : Txn) (e : Event)

@[simp] theorem State.complete_cr : (s.complete code txn e).cr = { s.cr with int := true } := rfl
@[simp] theorem State.complete_sr : (s.complete code txn e).sr = { s.sr with code := statusCode code } := rfl
@[simp] theorem State.complete_dr : (s.complete code txn e).dr = s.dr := rfl
@[simp] theorem State.complete_br : (s.complete code txn e).br = s.br := rfl
@[simp] theorem State.complete_txn : (s.complete code txn e).txn = txn := rfl
@[simp] theorem State.complete_phase : (s.complete code txn e).phase = none := rfl
@[simp] theorem State.complete_trace : (s.complete code txn e).trace = s.trace ++ [e] := rfl
@[simp] theorem State.complete_initialized : (s.complete code txn e).initialized = s.initialized := rfl
@[simp] theorem State.complete_fault : (s.complete code txn e).fault = s.fault := rfl
@[simp] theorem State.complete_todo : (s.complete code txn e).todo = s.todo := rfl
@[simp] theorem State.complete_out : (s.complete code txn e).out = s.out := rfl
@[simp] theorem State.complete_result : (s.complete code txn e).result = s.result := rfl
@[simp] theorem State.complete_turns : (s.complete code txn e).turns = s.turns := rfl
@[simp] theorem State.complete_draws : (s.complete code txn e).draws = s.draws := rfl

end

section
variable (s : State) (e : Event)

@[simp] theorem State.completeLost_cr : (s.completeLost e).cr = { s.cr with int := true } := rfl
@[simp] theorem State.completeLost_sr : (s.completeLost e).sr = { s.sr with code := statusCode .arbLost } := rfl
@[simp] theorem State.completeLost_dr : (s.completeLost e).dr = s.freeByte := rfl
@[simp] theorem State.completeLost_br : (s.completeLost e).br = s.br := rfl
@[simp] theorem State.completeLost_txn : (s.completeLost e).txn = .lost := rfl
@[simp] theorem State.completeLost_phase : (s.completeLost e).phase = none := rfl
@[simp] theorem State.completeLost_trace : (s.completeLost e).trace = s.trace ++ [e] := rfl
@[simp] theorem State.completeLost_initialized : (s.completeLost e).initialized = s.initialized := rfl
@[simp] theorem State.completeLost_fault : (s.completeLost e).fault = s.fault := rfl
@[simp] theorem State.completeLost_todo : (s.completeLost e).todo = s.todo := rfl
@[simp] theorem State.completeLost_out : (s.completeLost e).out = s.out := rfl
@[simp] theorem State.completeLost_result : (s.completeLost e).result = s.result := rfl
@[simp] theorem State.completeLost_turns : (s.completeLost e).turns = s.turns := rfl
@[simp] theorem State.completeLost_draws : (s.completeLost e).draws = s.draws + 1 := rfl

end

section
variable (s : State) (b : Byte) (code : StatusCode) (txn : Txn) (e : Event)

@[simp] theorem State.completeReceived_cr : (s.completeReceived b code txn e).cr = { s.cr with int := true } := rfl
@[simp] theorem State.completeReceived_sr : (s.completeReceived b code txn e).sr = { s.sr with code := statusCode code } := rfl
@[simp] theorem State.completeReceived_dr : (s.completeReceived b code txn e).dr = b := rfl
@[simp] theorem State.completeReceived_br : (s.completeReceived b code txn e).br = s.br := rfl
@[simp] theorem State.completeReceived_txn : (s.completeReceived b code txn e).txn = txn := rfl
@[simp] theorem State.completeReceived_phase : (s.completeReceived b code txn e).phase = none := rfl
@[simp] theorem State.completeReceived_trace : (s.completeReceived b code txn e).trace = s.trace ++ [e] := rfl
@[simp] theorem State.completeReceived_initialized : (s.completeReceived b code txn e).initialized = s.initialized := rfl
@[simp] theorem State.completeReceived_fault : (s.completeReceived b code txn e).fault = s.fault := rfl
@[simp] theorem State.completeReceived_todo : (s.completeReceived b code txn e).todo = s.todo := rfl
@[simp] theorem State.completeReceived_out : (s.completeReceived b code txn e).out = s.out := rfl
@[simp] theorem State.completeReceived_result : (s.completeReceived b code txn e).result = s.result := rfl
@[simp] theorem State.completeReceived_turns : (s.completeReceived b code txn e).turns = s.turns := rfl
@[simp] theorem State.completeReceived_draws : (s.completeReceived b code txn e).draws = s.draws := rfl

end

section
variable (s : State) (silent : Bool)

@[simp] theorem State.completeStop_cr : (s.completeStop silent).cr = { s.cr with sto := false } := rfl
@[simp] theorem State.completeStop_sr : (s.completeStop silent).sr = { s.sr with code := statusCode .noInfo } := rfl
@[simp] theorem State.completeStop_dr : (s.completeStop silent).dr = s.dr := rfl
@[simp] theorem State.completeStop_br : (s.completeStop silent).br = s.br := rfl
@[simp] theorem State.completeStop_txn : (s.completeStop silent).txn = .idle := rfl
@[simp] theorem State.completeStop_phase : (s.completeStop silent).phase = none := rfl
@[simp] theorem State.completeStop_trace : (s.completeStop silent).trace = (if silent then s.trace else s.trace ++ [.stop]) := rfl
@[simp] theorem State.completeStop_initialized : (s.completeStop silent).initialized = s.initialized := rfl
@[simp] theorem State.completeStop_fault : (s.completeStop silent).fault = s.fault := rfl
@[simp] theorem State.completeStop_todo : (s.completeStop silent).todo = s.todo := rfl
@[simp] theorem State.completeStop_out : (s.completeStop silent).out = s.out := rfl
@[simp] theorem State.completeStop_result : (s.completeStop silent).result = s.result := rfl
@[simp] theorem State.completeStop_turns : (s.completeStop silent).turns = s.turns := rfl
@[simp] theorem State.completeStop_draws : (s.completeStop silent).draws = s.draws := rfl

end

end Sys2Proof.Machine
end

