-- ==== Sys2Proof/Laws/Ops.lean ====
section
/-! SUPPORT. For each shared operation, everything it can do: the lemmas to cite instead of unfolding it. -/

namespace Sys2Proof.Machine

theorem unlessFaulted_of_none {s : State} (h : s.fault = none) (o : Outcome) : unlessFaulted s o = o := by
  simp [unlessFaulted, h]

theorem unlessFaulted_of_some {s : State} {r : Fault} (h : s.fault = some r) (o : Outcome) :
    unlessFaulted s o = .fault r := by
  simp [unlessFaulted, h]

/-- A next state comes from an unfaulted state. -/
theorem unlessFaulted_next {s t : State} {o : Outcome} (h : unlessFaulted s o = .next t) :
    s.fault = none ∧ o = .next t := by
  unfold unlessFaulted at h
  split at h
  · cases h
  · exact ⟨‹_›, h⟩

/-- A STOP is silent in Idle and Lost only (R107, R134). -/
theorem stopSilent_iff (txn : Txn) : stopSilent txn = true ↔ txn = .idle ∨ txn = .lost := by
  cases txn <;> simp [stopSilent, ownsBus]

/-- Reading a register gives a value to HOST; the only other change is the draw for DR in flight. -/
theorem readReg_eq (r : Reg) (s : State) :
    (∃ b, s.readReg r = s.returns (.byte b)) ∨
      (r = .dr ∧ s.phase ≠ none ∧ s.readReg r = (s.returns (.byte s.freeByte)).drawn) := by
  cases r with
  | br => exact .inl ⟨_, rfl⟩
  | sr => exact .inl ⟨_, rfl⟩
  | cr => exact .inl ⟨_, rfl⟩
  | dr =>
    cases h : s.phase with
    | none => exact .inl ⟨s.dr, by simp [State.readReg, h]⟩
    | some k => exact .inr ⟨rfl, by simp, by simp [State.readReg, h]⟩

theorem regRead_next {off : BitVec 3} {s t : State} (h : regRead off s = .next t) :
    s.fault = none ∧ ((∃ r, regAt off = some r ∧ t = s.readReg r) ∨
      (regAt off = none ∧ t = s.raise (.reservedOffset off))) := by
  obtain ⟨hf, h⟩ := unlessFaulted_next h
  refine ⟨hf, ?_⟩
  split at h
  · cases h; exact .inl ⟨_, ‹_›, rfl⟩
  · cases h; exact .inr ⟨‹_›, rfl⟩

theorem writeDr_next {d : Byte} {s t : State} (h : writeDr d s = .next t) :
    (s.phase ≠ none ∧ t = s.raise .writeDuringPhase) ∨
    (s.phase = none ∧ s.cr.int = false ∧ t = s.raise .dataWriteWhileFlagClear) ∨
    (s.phase = none ∧ s.cr.int = true ∧ t = { s with dr := d }) := by
  unfold writeDr at h
  split at h
  · cases h; exact .inl ⟨by simp_all [Option.isSome_iff_ne_none], rfl⟩
  · split at h
    · cases h; exact .inr (.inl ⟨by simp_all, by simp_all, rfl⟩)
    · cases h; exact .inr (.inr ⟨by simp_all, by simp_all, rfl⟩)

/-- What a command does: it faults, or sets CR and launches nothing, or launches a phase (R107). -/
theorem writeCommand_next {cmd : Command} {v : Byte} {s t : State} (h : writeCommand cmd v s = .next t) :
    (∃ r, t = s.raise r) ∨
    (s.phase = none ∧ cmd = .disable ∧ s.txn = .idle ∧
      t = { s with cr := Cr.command s.cr.int false false false v }) ∨
    (s.phase = none ∧ cmd = .enable ∧ t = { s with cr := Cr.command s.cr.int false false true v }) ∨
    (s.phase = none ∧ cmd = .start ∧ ∃ k, startPhase s.txn = some k ∧
      t = s.launch k (Cr.command false true false true v)) ∨
    (s.phase = none ∧ cmd = .stop ∧
      t = { s with txn := .stopped }.launch (.stop (stopSilent s.txn)) (Cr.command false false true true v)) ∨
    (s.phase = none ∧ (cmd = .contNak ∨ cmd = .contAck) ∧ ∃ k, contPhase s.txn s.dr (ackOf v) = some k ∧
      t = s.launch k (Cr.command false false false true v)) := by
  unfold writeCommand at h
  split at h
  · cases h; exact .inl ⟨_, rfl⟩
  · have hp : s.phase = none := by simp_all
    cases cmd with
    | stopStart => cases h; exact .inl ⟨_, rfl⟩
    | startNoclr => cases h; exact .inl ⟨_, rfl⟩
    | stopNoclr => cases h; exact .inl ⟨_, rfl⟩
    | disable =>
      dsimp only at h
      split at h
      · cases h; exact .inr (.inl ⟨hp, rfl, by simp_all, rfl⟩)
      · cases h; exact .inl ⟨_, rfl⟩
    | enable => cases h; exact .inr (.inr (.inl ⟨hp, rfl, rfl⟩))
    | start =>
      dsimp only at h
      split at h
      · cases h; exact .inr (.inr (.inr (.inl ⟨hp, rfl, _, ‹_›, rfl⟩)))
      · cases h; exact .inl ⟨_, rfl⟩
    | stop => cases h; exact .inr (.inr (.inr (.inr (.inl ⟨hp, rfl, rfl⟩))))
    | contNak =>
      dsimp only at h
      split at h
      · cases h; exact .inr (.inr (.inr (.inr (.inr ⟨hp, .inl rfl, _, ‹_›, rfl⟩))))
      · cases h; exact .inl ⟨_, rfl⟩
    | contAck =>
      dsimp only at h
      split at h
      · cases h; exact .inr (.inr (.inr (.inr (.inr ⟨hp, .inr rfl, _, ‹_›, rfl⟩))))
      · cases h; exact .inl ⟨_, rfl⟩

theorem regWrite_next {off : BitVec 3} {v : Byte} {s t : State} (h : regWrite off v s = .next t) :
    s.fault = none ∧ ((∃ r, regAt off = some r ∧ writeReg r v s = .next t) ∨
      (regAt off = none ∧ t = s.raise (.reservedOffset off))) := by
  obtain ⟨hf, h⟩ := unlessFaulted_next h
  refine ⟨hf, ?_⟩
  split at h
  · exact .inl ⟨_, ‹_›, h⟩
  · cases h; exact .inr ⟨‹_›, rfl⟩

theorem seqComplete_next {k : Phase} {effect : Turn → State → State} {s t : State}
    (h : seqComplete k effect s = .next t) :
    s.fault = none ∧ s.phase = some k ∧
      (((s.turn k).permits = true ∧ t = effect (s.turn k) s.nextTurn) ∨
        ((s.turn k).permits = false ∧ t = s.nextTurn)) := by
  obtain ⟨hf, h⟩ := unlessFaulted_next h
  split at h
  · refine ⟨hf, ‹_›, ?_⟩
    split at h
    · cases h; exact .inl ⟨‹_›, rfl⟩
    · cases h; exact .inr ⟨by simp_all, rfl⟩
  · cases h

theorem callPrimitive_next {violation : Option Contract} {expansion : List HostOp} {s t : State}
    (h : callPrimitive violation expansion s = .next t) :
    s.fault = none ∧ ((∃ c, violation = some c ∧ t = s.raise (.contractViolation c)) ∨
      (violation = none ∧ t = s.push expansion)) := by
  obtain ⟨hf, h⟩ := unlessFaulted_next h
  refine ⟨hf, ?_⟩
  split at h
  · cases h; exact .inl ⟨_, rfl, rfl⟩
  · cases h; exact .inr ⟨rfl, rfl⟩

end Sys2Proof.Machine
end

