-- ==== Sys2Proof/Laws/Moves.lean ====
section
/-! SUPPORT. Everything one step can do to the block, said once: the moves, and that exec and step make no other. -/

namespace Sys2Proof.Machine

/-- The block's part of a state: the record S of R20, with the model's own fields cleared. -/
def State.block (s : State) : State := { s with todo := [], out := [], result := .unit, turns := [], draws := 0 }

/-- The events the completion of a phase can append (R124). -/
inductive Completes : Phase → Event → Prop where
  | start : Completes .start .start
  | rstart : Completes .rstart .rstart
  | addr (frame : Byte) (r : Reply) : Completes (.sla frame) (.addr frame r)
  | dtx (byte : Byte) (r : Reply) : Completes (.dtx byte) (.dtx byte r)
  | drxAck (b : Byte) : Completes (.drx true) (.drx b .ack)
  | drxNak (b : Byte) : Completes (.drx false) (.drx b .nak)
  | drxLost (b : Byte) : Completes (.drx false) (.drx b .lost)

/-- What one step can do to the block. -/
inductive Move (s t : State) : Prop where
  /-- Nothing: a read, a poll, HOST's bookkeeping, a turn in which the phase stays in flight. -/
  | none (h : t.block = s.block)
  | raise (r : Fault) (h : t.block = (s.raise r).block)
  | setBr (d : Byte) (h : t.block = { s with br := d }.block)
  | setPsc (p : BitVec 2) (h : t.block = { s with sr := { s.sr with psc := p } }.block)
  | setDr (d : Byte) (hp : s.phase = .none) (hi : s.cr.int = true) (h : t.block = { s with dr := d }.block)
  | setInitialized (h : t.block = { s with initialized := true }.block)
  /-- CMD_ENABLE, and CMD_DISABLE in Idle: CR changes, nothing is launched. -/
  | setCr (acken en : Bool) (hp : s.phase = .none) (he : en = false → s.txn = .idle)
      (h : t.block = { s with cr := ⟨s.cr.int, acken, false, false, en⟩ }.block)
  | launch (k : Phase) (acken sta : Bool) (hp : s.phase = .none)
      (hk : startPhase s.txn = some k ∨ contPhase s.txn s.dr acken = some k)
      (h : t.block = (s.launch k ⟨false, acken, sta, false, true⟩).block)
  | launchStop (acken : Bool) (hp : s.phase = .none)
      (h : t.block = ({ s with txn := .stopped }.launch (.stop (stopSilent s.txn)) ⟨false, acken, false, true, true⟩).block)
  /-- A phase other than STOP completes; DR is `d` after it. -/
  | complete (k : Phase) (e : Event) (d : Byte) (hp : s.phase = some k) (hk : Completes k e)
      (h : t.block = { s.complete (eventCode e) (eventTxn e) e with dr := d }.block)
  | completeStop (silent : Bool) (hp : s.phase = some (.stop silent)) (h : t.block = (s.completeStop silent).block)

@[simp] theorem block_nextTurn (s : State) : s.nextTurn.block = s.block := rfl
@[simp] theorem block_push (ops : List HostOp) (s : State) : (s.push ops).block = s.block := rfl
@[simp] theorem block_returns (v : HostValue) (s : State) : (s.returns v).block = s.block := rfl
@[simp] theorem block_drawn (s : State) : s.drawn.block = s.block := rfl
@[simp] theorem block_todo (s : State) (ops : List HostOp) : { s with todo := ops }.block = s.block := rfl
@[simp] theorem block_out (s : State) (bs : List Byte) : { s with out := bs }.block = s.block := rfl

theorem block_readReg (r : Reg) (s : State) : (s.readReg r).block = s.block := by
  obtain ⟨b, h⟩ | ⟨-, -, h⟩ := readReg_eq r s <;> rw [h] <;> rfl

theorem regRead_move {off : BitVec 3} {s t : State} (h : regRead off s = .next t) : Move s t := by
  obtain ⟨-, ⟨r, -, rfl⟩ | ⟨-, rfl⟩⟩ := regRead_next h
  · exact .none (block_readReg r s)
  · exact .raise _ rfl

theorem writeCommand_move {cmd : Command} {v : Byte} {s t : State} (h : writeCommand cmd v s = .next t) : Move s t := by
  obtain ⟨r, rfl⟩ | ⟨hp, -, hi, rfl⟩ | ⟨hp, -, rfl⟩ | ⟨hp, -, k, hk, rfl⟩ | ⟨hp, -, rfl⟩ | ⟨hp, -, k, hk, rfl⟩ :=
    writeCommand_next h
  · exact .raise r rfl
  · exact .setCr _ false hp (fun _ => hi) rfl
  · exact .setCr _ true hp (fun h => by cases h) rfl
  · exact .launch k (ackOf v) true hp (.inl hk) rfl
  · exact .launchStop _ hp rfl
  · exact .launch k _ false hp (.inr hk) rfl

theorem regWrite_move {off : BitVec 3} {v : Byte} {s t : State} (h : regWrite off v s = .next t) : Move s t := by
  obtain ⟨-, ⟨r, -, h⟩ | ⟨-, rfl⟩⟩ := regWrite_next h
  · cases r with
    | br => cases h; exact .setBr _ rfl
    | sr => cases h; exact .setPsc _ rfl
    | cr => exact writeCommand_move h
    | dr =>
      obtain ⟨-, rfl⟩ | ⟨-, -, rfl⟩ | ⟨hp, hi, rfl⟩ := writeDr_next h
      · exact .raise _ rfl
      · exact .raise _ rfl
      · exact .setDr _ hp hi rfl
  · exact .raise _ rfl

theorem regAccess_move {we : Bool} {off : BitVec 3} {v : Byte} {s t : State} (h : regAccess we off v s = .next t) :
    Move s t := by
  unfold regAccess at h
  split at h
  · exact regWrite_move h
  · exact regRead_move h

theorem command_move {cmd : Command} {v : Byte} {s t : State}
    (h : unlessFaulted s (writeCommand cmd v s) = .next t) : Move s t :=
  writeCommand_move (unlessFaulted_next h).2

theorem callPrimitive_move {c : Option Contract} {ops : List HostOp} {s t : State}
    (h : callPrimitive c ops s = .next t) : Move s t := by
  obtain ⟨-, ⟨c, -, rfl⟩ | ⟨-, rfl⟩⟩ := callPrimitive_next h
  · exact .raise _ rfl
  · exact .none rfl

theorem beginSequence_move {ops : List HostOp} {s t : State} (h : beginSequence ops s = .next t) : Move s t := by
  obtain ⟨-, h⟩ := unlessFaulted_next h
  cases h
  exact .none rfl

/-- SEQ's step: the phase completes with one of its events, or stays in flight. -/
theorem seqComplete_move {k : Phase} {effect : Turn → State → State} {s t : State}
    (h : seqComplete k effect s = .next t)
    (he : ∀ tn, s.phase = some k → Move s (effect tn s.nextTurn)) : Move s t := by
  obtain ⟨-, hp, ⟨-, rfl⟩ | ⟨-, rfl⟩⟩ := seqComplete_next h
  · exact he _ hp
  · exact .none rfl

/-- Everything an operation's meaning can do to the block. -/
theorem exec_move {i : Instr} {s t : State} (hw : i.wf = true) (h : exec i s = .next t) : Move s t := by
  cases i with
  | rdBr => exact regRead_move (off := 0) h
  | rdSr => exact regRead_move (off := 1) h
  | rdDr => exact regRead_move (off := 3) h
  | rdCr => exact regRead_move (off := 4) h
  | wrBr d => exact regWrite_move (off := 0) (v := d) h
  | wrSr v => exact regWrite_move (off := 1) (v := v) h
  | wrDr d => exact regWrite_move (off := 3) (v := d) h
  | wrCr v => exact regWrite_move (off := 4) (v := v) h
  | reservedOff2 _ _ | reservedOff5 _ _ | reservedOff6 _ _ | reservedOff7 _ _ => exact regAccess_move h
  | cmdDisable _ | cmdEnable _ | cmdStart _ | cmdStop _ | cmdContNak _ | cmdContAck _ | cmdStartNoclr _
  | cmdStopNoclr _ | cmdStopStart _ => exact command_move h
  | phStart =>
    simp only [exec, execPhStart] at h
    exact seqComplete_move h fun _ hp => .complete _ .start s.dr hp .start rfl
  | phRstart =>
    simp only [exec, execPhRstart] at h
    exact seqComplete_move h fun _ hp => .complete _ .rstart s.dr hp .rstart rfl
  | phSlaW frame =>
    simp only [exec, execPhSlaW] at h
    have hb : frame.bit 0 = false := by simpa [Instr.wf] using hw
    refine seqComplete_move h fun tn hp => ?_
    cases hr : tn.addrReply with
    | ack => exact .complete _ (.addr frame .ack) s.dr hp (.addr ..) (by simp only [eventCode, eventTxn, frameDir, hb]; rfl)
    | nak => exact .complete _ (.addr frame .nak) s.dr hp (.addr ..) (by simp only [eventCode, eventTxn, frameDir, hb]; rfl)
    | lost => exact .complete _ (.addr frame .lost) _ hp (.addr ..) rfl
  | phSlaR frame =>
    simp only [exec, execPhSlaR] at h
    have hb : frame.bit 0 = true := hw
    refine seqComplete_move h fun tn hp => ?_
    cases hr : tn.addrReply with
    | ack => exact .complete _ (.addr frame .ack) s.dr hp (.addr ..) (by simp only [eventCode, eventTxn, frameDir, hb]; rfl)
    | nak => exact .complete _ (.addr frame .nak) s.dr hp (.addr ..) (by simp only [eventCode, eventTxn, frameDir, hb]; rfl)
    | lost => exact .complete _ (.addr frame .lost) _ hp (.addr ..) rfl
  | phDataTx byte =>
    simp only [exec, execPhDataTx] at h
    refine seqComplete_move h fun tn hp => ?_
    cases hr : tn.dataReply with
    | ack => exact .complete _ (.dtx byte .ack) s.dr hp (.dtx ..) rfl
    | nak => exact .complete _ (.dtx byte .nak) s.dr hp (.dtx ..) rfl
    | lost => exact .complete _ (.dtx byte .lost) _ hp (.dtx ..) rfl
  | phDataRxAck =>
    simp only [exec, execPhDataRxAck] at h
    exact seqComplete_move h fun tn hp => .complete _ (.drx tn.readByte .ack) tn.readByte hp (.drxAck _) rfl
  | phDataRxNak =>
    simp only [exec, execPhDataRxNak] at h
    refine seqComplete_move h fun tn hp => ?_
    split
    · exact .complete _ (.drx tn.readByte .lost) tn.readByte hp (.drxLost _) rfl
    · exact .complete _ (.drx tn.readByte .nak) tn.readByte hp (.drxNak _) rfl
  | phStop silent =>
    simp only [exec, execPhStop] at h
    exact seqComplete_move h fun _ hp => .completeStop silent hp rfl
  | initializeBus f =>
    obtain ⟨-, h⟩ := unlessFaulted_next h
    split at h
    · cases h; exact .raise _ rfl
    · split at h <;> cases h <;> exact .none rfl
  | status =>
    simp only [exec, execStatus] at h
    exact callPrimitive_move h
  | start | stop | transmitAddress _ _ | transmitByte _ | receiveByte _ => exact callPrimitive_move h
  | describe c =>
    obtain ⟨-, h⟩ := unlessFaulted_next h
    cases h; exact .none rfl
  | readByte _ | writeByte _ _ => exact beginSequence_move h
  | waitUntilWriteComplete =>
    obtain ⟨-, h⟩ := unlessFaulted_next h
    cases h; exact .none rfl
  | writePage a d =>
    simp only [exec, execWritePage] at h
    split at h
    · obtain ⟨-, h⟩ := unlessFaulted_next h
      cases h; exact .none rfl
    · exact beginSequence_move h
  | sequentialRead a c =>
    simp only [exec, execSequentialRead] at h
    split at h
    · obtain ⟨-, h⟩ := unlessFaulted_next h
      cases h; exact .none rfl
    · exact beginSequence_move h

theorem phaseInstr_wf (k : Phase) : (phaseInstr k).wf = true := by
  cases k with
  | sla frame =>
    unfold phaseInstr
    cases hb : frame.bit 0
    · simp only [Bool.false_eq_true, if_false, Instr.wf, hb, Bool.not_false]
    · simp only [if_true, Instr.wf, hb]
  | drx a => cases a <;> rfl
  | start | rstart | dtx _ | stop _ => rfl

theorem pollCr_move {c : Byte → Bool} {again : HostOp} {s t : State} (h : pollCr c again s = .next t) : Move s t := by
  unfold pollCr at h
  split at h <;> cases h
  · exact .none (block_readReg .cr s)
  · exact .none (block_readReg .cr s)

/-- A move from a state that differs in HOST's and ENV's fields only. -/
theorem Move.of_block {s s' t : State} (hb : s.block = s'.block) (h : Move s t) : Move s' t := by
  have hcr : s.cr = s'.cr := show s.block.cr = s'.block.cr by rw [hb]
  have hsr : s.sr = s'.sr := show s.block.sr = s'.block.sr by rw [hb]
  have hdr : s.dr = s'.dr := show s.block.dr = s'.block.dr by rw [hb]
  have hbr : s.br = s'.br := show s.block.br = s'.block.br by rw [hb]
  have htxn : s.txn = s'.txn := show s.block.txn = s'.block.txn by rw [hb]
  have hph : s.phase = s'.phase := show s.block.phase = s'.block.phase by rw [hb]
  have htr : s.trace = s'.trace := show s.block.trace = s'.block.trace by rw [hb]
  have hin : s.initialized = s'.initialized := show s.block.initialized = s'.block.initialized by rw [hb]
  have hfa : s.fault = s'.fault := show s.block.fault = s'.block.fault by rw [hb]
  cases h with
  | none h => exact .none (h.trans hb)
  | raise r h => exact .raise r (h.trans (by simp [State.block, State.raise, *]))
  | setBr d h => exact .setBr d (h.trans (by simp [State.block, *]))
  | setPsc p h => exact .setPsc p (h.trans (by simp [State.block, *]))
  | setDr d hp hi h => exact .setDr d (hph ▸ hp) (hcr ▸ hi) (h.trans (by simp [State.block, *]))
  | setInitialized h => exact .setInitialized (h.trans (by simp [State.block, *]))
  | setCr a e hp he h => exact .setCr a e (hph ▸ hp) (htxn ▸ he) (h.trans (by simp [State.block, *]))
  | launch k a b hp hk h =>
    exact .launch k a b (hph ▸ hp) (hdr ▸ htxn ▸ hk) (h.trans (by simp [State.block, State.launch, *]))
  | launchStop a hp h => exact .launchStop a (hph ▸ hp) (h.trans (by simp [State.block, State.launch, *]))
  | complete k e d hp hk h =>
    exact .complete k e d (hph ▸ hp) hk (h.trans (by simp [State.block, State.complete, *]))
  | completeStop b hp h => exact .completeStop b (hph ▸ hp) (h.trans (by simp [State.block, State.completeStop, *]))

theorem hostMove_move {s t : State} (h : hostMove s = .next t) : Move s t := by
  unfold hostMove at h
  split at h
  · cases h; exact .none rfl
  · rename_i bytes rest _
    unfold fetchWord at h
    split at h
    · exact (exec_move (decode_wf ‹_›) h).of_block (block_todo s _)
    · cases h
  · unfold fetchInstr at h
    split at h
    · exact (exec_move ‹_› h).of_block (block_todo s _)
    · cases h
  · exact (pollCr_move h).of_block (block_todo s _)
  · exact (pollCr_move h).of_block (block_todo s _)
  · cases h; exact .setInitialized rfl
  · cases h; exact .none rfl
  · cases h; exact .none rfl
  · unfold execPollTest at h
    split at h <;> cases h <;> exact .none rfl
  · cases h; exact .none rfl
  · cases h; exact .none rfl
  · cases h; exact .none rfl

/-- Everything one step can do to the block. -/
theorem step_move {s t : State} (h : step s = .next t) : s.fault = none ∧ Move s t := by
  obtain ⟨hf, h⟩ := unlessFaulted_next h
  refine ⟨hf, ?_⟩
  split at h
  · exact hostMove_move h
  · split at h
    · exact exec_move (phaseInstr_wf _) h
    · exact (hostMove_move h).of_block (block_nextTurn s)

end Sys2Proof.Machine
end

