-- ==== Sys2Proof/Laws/Runs.lean ====
section
/-! SUPPORT. Runs of several steps taken apart, who moves in a step, and the flags a poll of CR reads. -/

namespace Sys2Proof.Machine

/-- The host's run, one step at a time. -/
theorem core_run_succ (M : Host.Core) (n : Nat) (s : M.State) :
    M.run (n + 1) s =
      match M.step s with
      | .next t => M.run n t
      | .fault r => .fault r
      | .refused r => .refused r := rfl

theorem runSteps_succ {n : Nat} {s t : State} (h : step s = .next t) : runSteps (n + 1) s = runSteps n t :=
  (core_run_succ Sys2Proof.core n s).trans (by rw [show Sys2Proof.core.step s = _ from h])

theorem runSteps_succ_fault {n : Nat} {s : State} {r : Fault} (h : step s = .fault r) :
    runSteps (n + 1) s = .fault r :=
  (core_run_succ Sys2Proof.core n s).trans (by rw [show Sys2Proof.core.step s = _ from h]; rfl)

/-- A run of `m + n` steps whose first `m` lead to `t` goes on from `t`. -/
theorem runSteps_add (m n : Nat) : ∀ {s t : State}, runSteps m s = .next t → runSteps (m + n) s = runSteps n t := by
  induction m with
  | zero => intro s t h; cases h; rw [Nat.zero_add]
  | succ m ih =>
    intro s t h
    rw [Nat.add_right_comm]
    cases hs : step s with
    | next x => rw [runSteps_succ hs] at h ⊢; exact ih h
    | fault r => rw [runSteps_succ_fault hs] at h; cases h
    | refused r =>
      have h' := (core_run_succ Sys2Proof.core m s).symm.trans h
      rw [show Sys2Proof.core.step s = _ from hs] at h'
      cases h'

/-- With no phase in flight HOST moves. -/
theorem step_idle {s : State} (hf : s.fault = none) (hp : s.phase = none) : step s = hostMove s := by
  simp [step, agentMove, unlessFaulted, hf, hp]

/-- While a phase is in flight the turn says who moves. -/
theorem step_inFlight {s : State} {k : Phase} (hf : s.fault = none) (hp : s.phase = some k) :
    step s = if (s.turn k).seqFirst then exec (phaseInstr k) s else hostMove s.nextTurn := by
  simp [step, agentMove, unlessFaulted, hf, hp]

/-- SEQ's instruction for a phase is a completion step of that phase. -/
theorem exec_phaseInstr (k : Phase) :
    ∃ effect : Turn → State → State, ∀ s, exec (phaseInstr k) s = seqComplete k effect s := by
  cases k with
  | start => exact ⟨_, fun s => by unfold phaseInstr; dsimp only [exec]; unfold execPhStart; rfl⟩
  | rstart => exact ⟨_, fun s => by unfold phaseInstr; dsimp only [exec]; unfold execPhRstart; rfl⟩
  | sla frame =>
    unfold phaseInstr
    dsimp only
    cases frame.bit 0
    · exact ⟨_, fun s => by dsimp only [exec, Bool.false_eq_true, if_false]; unfold execPhSlaW; rfl⟩
    · exact ⟨_, fun s => by dsimp only [exec, if_true]; unfold execPhSlaR; rfl⟩
  | dtx byte => exact ⟨_, fun s => by unfold phaseInstr; dsimp only [exec]; unfold execPhDataTx; rfl⟩
  | drx acken =>
    cases acken
    · exact ⟨_, fun s => by unfold phaseInstr; dsimp only [exec]; unfold execPhDataRxNak; rfl⟩
    · exact ⟨_, fun s => by unfold phaseInstr; dsimp only [exec]; unfold execPhDataRxAck; rfl⟩
  | stop silent => exact ⟨_, fun s => by unfold phaseInstr; dsimp only [exec]; unfold execPhStop; rfl⟩

/-- The flag INT in the byte a read of CR gives. -/
theorem toByte_bit7 (c : Cr) : c.toByte.bit 7 = c.int := by
  rcases c with ⟨a, b, c, d, e⟩
  cases a <;> cases b <;> cases c <;> cases d <;> cases e <;> rfl

/-- The flag STO in the byte a read of CR gives. -/
theorem toByte_bit4 (c : Cr) : c.toByte.bit 4 = c.sto := by
  rcases c with ⟨a, b, c, d, e⟩
  cases a <;> cases b <;> cases c <;> cases d <;> cases e <;> rfl

end Sys2Proof.Machine
end

