-- ==== Sys2Proof/Tests/Slice0.lean ====
section
/-! SUPPORT. The model's own tests. Expected results are those of spec/95_test_vectors.md (V-A, V-P, V-F, V-M, V-E, V-S) or are worked out by hand from the cited rule; every test is one step. The test_witness theorems meet the hypotheses of the statement they name. -/

namespace Sys2Proof.Tests

open Sys2Proof.Machine

/-! ### Helpers -/

/-- `INIT` of spec/95_test_vectors.md. -/
def initS : State := { State.reset with cr := ⟨false, false, false, false, true⟩, sr := ⟨31, 1⟩, br := 0x12, initialized := true }

/-- Between two phases: INT = 1, the given transaction state, CODE and DR. -/
def halted (txn : Txn) (code : BitVec 5) (dr : Byte) : State :=
  { initS with cr := ⟨true, false, false, false, true⟩, sr := ⟨code, 1⟩, txn := txn, dr := dr }

/-- A turn in which the phase in flight completes with these answers. -/
def turn (a d : Reply) (b : Byte) (lost : Bool) : Turn := ⟨true, true, a, d, b, lost⟩

/-- A turn in which nothing completes because ENV does not permit it. -/
def idleTurn : Turn := ⟨true, false, .lost, .lost, 0, true⟩

/-- A turn in which HOST moves. -/
def hostTurn' : Turn := ⟨false, true, .lost, .lost, 0, true⟩

/-- `s` with the phase `k` in flight and the next turn given. -/
def inFlight (k : Phase) (t : Turn) (s : State) : State :=
  { s with cr := { s.cr with int := false }, phase := some k, turns := [t] }

/-- A STOP in flight. -/
def stopping (silent : Bool) (t : Turn) : State :=
  { initS with cr := ⟨false, false, false, true, true⟩, txn := .stopped, phase := some (.stop silent), turns := [t] }

/-- CR, SR, DR and BR as bytes. -/
abbrev Regs := Byte × Byte × Byte × Byte

/-- The registers of a next state, with txn and the phase. -/
def regs : Outcome → Option (Regs × Txn × Option Phase)
  | .next s => some ((s.cr.toByte, s.sr.toByte, s.dr, s.br), s.txn, s.phase)
  | .fault _ => none
  | .refused _ => none

/-- What a next state returned to HOST. -/
def returned : Outcome → Option HostValue
  | .next s => some s.result
  | .fault _ => none
  | .refused _ => none

/-- The fault a next state has raised. -/
def raised : Outcome → Option Fault
  | .next s => s.fault
  | .fault _ => none
  | .refused _ => none

/-- The trace of a next state. -/
def traceOf : Outcome → List Event
  | .next s => s.trace
  | .fault _ => []
  | .refused _ => []

/-- HOST's work after a next state. -/
def todoOf : Outcome → List HostOp
  | .next s => s.todo
  | .fault _ => []
  | .refused _ => []

/-- CODE8 and txn after a next state, without DR. -/
def codeOf : Outcome → Option (Byte × Txn)
  | .next s => some (code8 s.sr.code, s.txn)
  | .fault _ => none
  | .refused _ => none

/-! ### Well-formed terms: one ill-formed term for each check -/

theorem test_illFormed_disable : (Instr.cmdDisable 0x04).wf = false := by decide
theorem test_illFormed_enable : (Instr.cmdEnable 0x84).wf = false := by decide
theorem test_illFormed_start : (Instr.cmdStart 0x24).wf = false := by decide
theorem test_illFormed_stop : (Instr.cmdStop 0x14).wf = false := by decide
theorem test_illFormed_contNak : (Instr.cmdContNak 0xC4).wf = false := by decide
theorem test_illFormed_contAck : (Instr.cmdContAck 0x84).wf = false := by decide
theorem test_illFormed_startNoclr : (Instr.cmdStartNoclr 0xA4).wf = false := by decide
theorem test_illFormed_stopNoclr : (Instr.cmdStopNoclr 0x94).wf = false := by decide
theorem test_illFormed_stopStart : (Instr.cmdStopStart 0x24).wf = false := by decide
theorem test_illFormed_slaW : (Instr.phSlaW 0xA1).wf = false := by decide
theorem test_illFormed_slaR : (Instr.phSlaR 0xA0).wf = false := by decide

/-- An ill-formed term of HOST's list is refused by name. -/
theorem test_illFormed_refused :
    step { State.reset with todo := [.run (.phSlaW 0xA1)] } = .refused .illFormed := rfl

/-! ### Decoding: every row's word, from the bit patterns of R72 and R77 -/

theorem test_decode_rdBr : decode [0b00000000, 0b0000] = .ok .rdBr := rfl
theorem test_decode_wrBr : decode [0b00010010, 0b1000] = .ok (.wrBr 0x12) := rfl
theorem test_decode_rdSr : decode [0b00000000, 0b0001] = .ok .rdSr := rfl
theorem test_decode_wrSr : decode [0b11111101, 0b1001] = .ok (.wrSr 0xFD) := rfl
theorem test_decode_rdDr : decode [0b11111111, 0b0011] = .ok .rdDr := rfl
theorem test_decode_wrDr : decode [0b10100000, 0b1011] = .ok (.wrDr 0xA0) := rfl
theorem test_decode_rdCr : decode [0b00000000, 0b0100] = .ok .rdCr := rfl
theorem test_decode_wrCr : decode [0b10100100, 0b1100] = .ok (.wrCr 0xA4) := rfl
theorem test_decode_reserved2 : decode [0b01010101, 0b1010] = .ok (.reservedOff2 true 0x55) := rfl
theorem test_decode_reserved5 : decode [0b00000000, 0b0101] = .ok (.reservedOff5 false 0x00) := rfl
theorem test_decode_reserved6 : decode [0b00000001, 0b1110] = .ok (.reservedOff6 true 0x01) := rfl
theorem test_decode_reserved7 : decode [0b11111111, 0b0111] = .ok (.reservedOff7 false 0xFF) := rfl
theorem test_decode_disable : decode [0b11111011] = .ok (.cmdDisable 0xFB) := rfl
theorem test_decode_enable : decode [0b01001100] = .ok (.cmdEnable 0x4C) := rfl
theorem test_decode_start : decode [0b10101111] = .ok (.cmdStart 0xAF) := rfl
theorem test_decode_stop : decode [0b10011100] = .ok (.cmdStop 0x9C) := rfl
theorem test_decode_contNak : decode [0b10001111] = .ok (.cmdContNak 0x8F) := rfl
theorem test_decode_contAck : decode [0b11001101] = .ok (.cmdContAck 0xCD) := rfl
theorem test_decode_startNoclr : decode [0b01100100] = .ok (.cmdStartNoclr 0x64) := rfl
theorem test_decode_stopNoclr : decode [0b01010100] = .ok (.cmdStopNoclr 0x54) := rfl
theorem test_decode_stopStart : decode [0b11110100] = .ok (.cmdStopStart 0xF4) := rfl
theorem test_decode_tableWord : decodeTableWord 12 0x812 = some (.wrBr 0x12) := rfl
theorem test_decode_highBits : decode [0x00, 0x10] = .error (.highBitsSet 0x10) := rfl
theorem test_decode_length : decode [] = .error (.badLength 0) := rfl

/-- A phase and a pseudo-instruction have no word of their own (R79, R90). -/
theorem test_encode_noWord : encode .phStart = none ∧ encode .start = none := by decide

/-- How many values spell each command (section 3.2). -/
theorem test_command_counts :
    [Command.disable, .stopStart, .start, .startNoclr, .stop, .stopNoclr, .contAck, .contNak, .enable].map
      (fun c => ((List.range 256).filter fun n => decodeCommand (BitVec.ofNat 8 n) == c).length) =
    [128, 32, 16, 16, 16, 16, 8, 8, 16] := by decide +kernel

/-- Bit 0 of DR selects the direction of an address phase (R79). -/
theorem test_phase_rows :
    phaseInstr (.sla 0xA0) = .phSlaW 0xA0 ∧ phaseInstr (.sla 0xA1) = .phSlaR 0xA1 ∧
    phaseInstr (.drx true) = .phDataRxAck ∧ phaseInstr (.drx false) = .phDataRxNak := by decide

/-! ### Level 1 (section 3.1) -/

theorem test_rdBr : returned (exec .rdBr initS) = some (.byte 0x12) := by decide
theorem test_wrBr : regs (exec (.wrBr 0x12) .reset) = some ((0x00, 0xF8, 0xFF, 0x12), .idle, none) := by decide
theorem test_wrBr_inFlight :
    regs (exec (.wrBr 0x44) (inFlight (.sla 0xA0) idleTurn (halted .started 1 0xA0))) =
      some ((0x04, 0x09, 0xA0, 0x44), .started, some (.sla 0xA0)) := by decide
theorem test_rdSr : returned (exec .rdSr .reset) = some (.byte 0xF8) := by decide
theorem test_rdSr_inFlight :
    returned (exec .rdSr (inFlight (.sla 0xA0) idleTurn (halted .started 1 0xA0))) = some (.byte 0x09) := by decide
theorem test_wrSr_FD : regs (exec (.wrSr 0xFD) .reset) = some ((0x00, 0xF9, 0xFF, 0x00), .idle, none) := by decide
theorem test_wrSr_FF : regs (exec (.wrSr 0xFF) .reset) = some ((0x00, 0xFB, 0xFF, 0x00), .idle, none) := by decide
theorem test_rdDr : returned (exec .rdDr .reset) = some (.byte 0xFF) := by decide
theorem test_rdDr_inFlight :
    returned (exec .rdDr (inFlight (.sla 0xA0) idleTurn (halted .started 1 0xA0))) =
      some (.byte (Config.freeByte 0)) := rfl
theorem test_wrDr_flagClear : raised (exec (.wrDr 0xA0) .reset) = some .dataWriteWhileFlagClear := by decide
theorem test_wrDr : regs (exec (.wrDr 0xA1) (halted .started 1 0xFF)) =
    some ((0x84, 0x09, 0xA1, 0x12), .started, none) := by decide
theorem test_rdCr : returned (exec .rdCr .reset) = some (.byte 0x00) := by decide
theorem test_rdCr_inFlight :
    returned (exec .rdCr (inFlight (.sla 0xA0) idleTurn (halted .started 1 0xA0))) = some (.byte 0x04) := by decide
theorem test_wrCr_start : regs (exec (.wrCr 0xAF) .reset) =
    some ((0x24, 0xF8, 0xFF, 0x00), .idle, some .start) := by decide
theorem test_wrCr_inFlight : raised (exec (.wrCr 0x24) (inFlight (.sla 0xA0) idleTurn (halted .started 1 0xA0))) =
    some .writeDuringPhase := by decide
theorem test_reserved2 : raised (exec (.reservedOff2 true 0x55) .reset) = some (.reservedOffset 2) := by decide
theorem test_reserved5 : raised (exec (.reservedOff5 false 0x00) .reset) = some (.reservedOffset 5) := by decide
theorem test_reserved6 : raised (exec (.reservedOff6 false 0x00) .reset) = some (.reservedOffset 6) := by decide
theorem test_reserved7 : raised (exec (.reservedOff7 false 0x00) .reset) = some (.reservedOffset 7) := by decide

/-! ### Level 2 (sections 3.1, 3.3 and 3.4) -/

theorem test_cmdDisable : regs (exec (.cmdDisable 0xFB) initS) = some ((0x40, 0xF9, 0xFF, 0x12), .idle, none) := by decide
theorem test_cmdDisable_lost : raised (exec (.cmdDisable 0x00) (halted .lost 7 0)) =
    some .disableDuringTransaction := by decide
theorem test_cmdEnable : regs (exec (.cmdEnable 0x44) .reset) = some ((0x44, 0xF8, 0xFF, 0x00), .idle, none) := by decide
theorem test_cmdEnable_midTransaction :
    regs (exec (.cmdEnable 0x04) { halted .started 1 0xFF with cr := ⟨true, false, true, false, true⟩ }) =
      some ((0x84, 0x09, 0xFF, 0x12), .started, none) := by decide
theorem test_cmdStart_repeated : regs (exec (.cmdStart 0xA4) (halted (.dataPhase .w .ack) 5 0x10)) =
    some ((0x24, 0x29, 0x10, 0x12), .dataPhase .w .ack, some .rstart) := by decide
theorem test_cmdStart_illegal : raised (exec (.cmdStart 0xA4) (halted (.dataPhase .r .ack) 10 0x6C)) =
    some (.illegalPhase (.dataPhase .r .ack) .start) := by decide
theorem test_cmdStop : regs (exec (.cmdStop 0xD4) (halted (.addrSent .w .ack) 3 0xA0)) =
    some ((0x54, 0x19, 0xA0, 0x12), .stopped, some (.stop false)) := by decide
theorem test_cmdStop_silent : regs (exec (.cmdStop 0x94) initS) =
    some ((0x14, 0xF9, 0xFF, 0x12), .stopped, some (.stop true)) := by decide
theorem test_cmdContNak : regs (exec (.cmdContNak 0x84) (halted .started 1 0xA1)) =
    some ((0x04, 0x09, 0xA1, 0x12), .started, some (.sla 0xA1)) := by decide
theorem test_cmdContNak_illegal : raised (exec (.cmdContNak 0x84) initS) =
    some (.illegalPhase .idle .contNak) := by decide
theorem test_cmdContAck : regs (exec (.cmdContAck 0xC4) (halted (.addrSent .r .ack) 8 0xA1)) =
    some ((0x44, 0x41, 0xA1, 0x12), .addrSent .r .ack, some (.drx true)) := by decide
theorem test_cmdContAck_illegal : raised (exec (.cmdContAck 0xC4) (halted (.addrSent .r .nak) 9 0xA1)) =
    some (.illegalPhase (.addrSent .r .nak) .contAck) := by decide
theorem test_cmdStartNoclr : raised (exec (.cmdStartNoclr 0x24) (halted .started 1 0)) =
    some (.unadmittedCommand 0x24) := by decide
theorem test_cmdStopNoclr : raised (exec (.cmdStopNoclr 0x14) (halted .started 1 0)) =
    some (.unadmittedCommand 0x14) := by decide
theorem test_cmdStopStart : raised (exec (.cmdStopStart 0xB4) initS) = some (.unadmittedCommand 0xB4) := by decide

/-! ### Level 3 (section 3.3) -/

theorem test_phStart : regs (exec .phStart (inFlight .start (turn .lost .lost 0 true) { initS with cr := ⟨false, false, true, false, true⟩ })) =
    some ((0xA4, 0x09, 0xFF, 0x12), .started, none) := by decide
theorem test_phRstart :
    regs (exec .phRstart (inFlight .rstart (turn .lost .lost 0 true) (halted (.dataPhase .r .nak) 11 0x4F))) =
      some ((0x84, 0x11, 0x4F, 0x12), .started, none) := by decide
theorem test_phSlaW :
    regs (exec (.phSlaW 0xA0) (inFlight (.sla 0xA0) (turn .nak .ack 0 false) (halted .started 1 0xA0))) =
      some ((0x84, 0x21, 0xA0, 0x12), .addrSent .w .nak, none) := by decide
theorem test_phSlaW_lost :
    codeOf (exec (.phSlaW 0xA0) (inFlight (.sla 0xA0) (turn .lost .ack 0 false) (halted .started 1 0xA0))) =
      some (0x38, .lost) := by decide
theorem test_phSlaR :
    regs (exec (.phSlaR 0xA1) (inFlight (.sla 0xA1) (turn .ack .nak 0 false) (halted .started 1 0xA1))) =
      some ((0x84, 0x41, 0xA1, 0x12), .addrSent .r .ack, none) := by decide
theorem test_phSlaR_trace :
    traceOf (exec (.phSlaR 0xFF) (inFlight (.sla 0xFF) (turn .nak .ack 0 false) (halted .started 1 0xFF))) =
      [.addr 0xFF .nak] := by decide
theorem test_phDataTx :
    regs (exec (.phDataTx 0x4F) (inFlight (.dtx 0x4F) (turn .ack .nak 0 false) (halted (.dataPhase .w .ack) 5 0x4F))) =
      some ((0x84, 0x31, 0x4F, 0x12), .dataPhase .w .nak, none) := by decide
theorem test_phDataTx_lost :
    codeOf (exec (.phDataTx 0x4F) (inFlight (.dtx 0x4F) (turn .ack .lost 0 false) (halted (.dataPhase .w .ack) 5 0x4F))) =
      some (0x38, .lost) := by decide
theorem test_phDataRxAck :
    regs (exec .phDataRxAck (inFlight (.drx true) (turn .nak .nak 0x6C true) (halted (.addrSent .r .ack) 8 0xA1))) =
      some ((0x84, 0x51, 0x6C, 0x12), .dataPhase .r .ack, none) := by decide
theorem test_phDataRxNak :
    regs (exec .phDataRxNak (inFlight (.drx false) (turn .nak .nak 0x4F false) (halted (.addrSent .r .ack) 8 0xA1))) =
      some ((0x84, 0x59, 0x4F, 0x12), .dataPhase .r .nak, none) := by decide
theorem test_phDataRxNak_lost :
    regs (exec .phDataRxNak (inFlight (.drx false) (turn .ack .ack 0x65 true) (halted (.dataPhase .r .ack) 10 0x6C))) =
      some ((0x84, 0x39, 0x65, 0x12), .lost, none) := by decide
theorem test_phStop : regs (exec (.phStop false) (stopping false (turn .ack .ack 0 false))) =
    some ((0x04, 0xF9, 0xFF, 0x12), .idle, none) := by decide
theorem test_phStop_trace :
    traceOf (exec (.phStop false) (stopping false (turn .ack .ack 0 false))) = [.stop] ∧
    traceOf (exec (.phStop true) (stopping true (turn .ack .ack 0 false))) = [] := by decide

/-! ### Primitives (section 3.5): the accesses each call makes, and its contract -/

theorem test_initialize_400k : todoOf (exec (.initializeBus 400000) .reset) =
    [.run (.wrSr 0x01), .run (.wrBr 0x03), .run (.wrCr 0x04), .setInitialized, .retUnit] := by decide
theorem test_initialize_dividers :
    dividerFor 50000 = 0x26 ∧ dividerFor 123456 = 0x0E ∧ dividerFor 2000000 = 0x00 ∧ dividerFor 1000 = 0xCE := by decide
theorem test_start_notInitialized : raised (exec .start .reset) = some (.contractViolation .notInitialized) := by decide
theorem test_start : todoOf (exec .start initS) = [.run (.wrCr 0xA4), .waitInt, .retUnit] := by decide
theorem test_stop : todoOf (exec .stop initS) = [.run (.wrCr 0x94), .waitSto, .retUnit] := by decide
theorem test_status_mask : returned (step { initS with todo := [.maskStatus], result := .byte 0x19 }) =
    some (.byte 0x18) := by decide
theorem test_transmitAddress : todoOf (exec (.transmitAddress 0xA1 .w) (halted .started 1 0xFF)) =
    [.run (.wrDr 0xA0), .run (.wrCr 0x84), .waitInt, .retUnit] := by decide
theorem test_transmitAddress_order : raised (exec (.transmitAddress 0xA0 .w) initS) =
    some (.contractViolation (.callOrder .transmitAddress .idle)) := by decide
theorem test_transmitByte : todoOf (exec (.transmitByte 0x10) (halted (.addrSent .w .ack) 3 0xA0)) =
    [.run (.wrDr 0x10), .run (.wrCr 0x84), .waitInt, .retUnit] := by decide
theorem test_transmitByte_order : raised (exec (.transmitByte 0x10) (halted (.addrSent .r .ack) 8 0xA1)) =
    some (.contractViolation (.callOrder .transmitByte (.addrSent .r .ack))) := by decide
theorem test_receiveByte : todoOf (exec (.receiveByte true) (halted (.addrSent .r .ack) 8 0xA1)) =
    [.run (.wrCr 0xC4), .waitInt, .run .rdDr] := by decide
theorem test_receiveByte_order : raised (exec (.receiveByte false) (halted (.dataPhase .r .nak) 11 0x65)) =
    some (.contractViolation (.callOrder .receiveByte (.dataPhase .r .nak))) := by decide

/-! ### The status decoder and the sequences (V-S1, section 3.6) -/

theorem test_describe_masked : returned (exec (.describe 0x19) .reset) = some (.text "SLA+W ACK") := by decide +kernel
theorem test_describe_unknown : returned (exec (.describe 0xFF) .reset) = some (.text "unknown, raw=0xF8") := by
  decide +kernel
theorem test_readByte : todoOf (exec (.readByte 0x10) initS) =
    [.run .start, .run (.transmitAddress 0xA0 .w), .run (.transmitByte 0x10), .run .start,
      .run (.transmitAddress 0xA0 .r), .run (.receiveByte false), .keepByte, .run .stop, .retByte] := by decide
theorem test_writeByte : todoOf (exec (.writeByte 0x10 0x4F) initS) =
    [.run .start, .run (.transmitAddress 0xA0 .w), .run (.transmitByte 0x10), .run (.transmitByte 0x4F),
      .run .stop, .run .waitUntilWriteComplete] := by decide
theorem test_poll_again : todoOf (step { halted (.addrSent .w .nak) 4 0xA0 with todo := [.pollTest, .retUnit], result := .byte 0x20 }) =
    [.run .start, .run (.transmitAddress 0xA0 .w), .run .status, .pollTest, .retUnit] := by decide
theorem test_poll_done : todoOf (step { halted (.addrSent .w .ack) 3 0xA0 with todo := [.pollTest, .retUnit], result := .byte 0x18 }) =
    [.retUnit] := by decide
theorem test_writePage_empty : returned (exec (.writePage 0x10 []) initS) = some (.error .lengthOutOfRange) := by decide
theorem test_sequentialRead_zero : returned (exec (.sequentialRead 0x10 0) initS) = some (.error .countMismatch) := by decide
theorem test_sequentialRead : todoOf (exec (.sequentialRead 0x10 3) initS) =
    [.run .start, .run (.transmitAddress 0xA0 .w), .run (.transmitByte 0x10), .run .start,
      .run (.transmitAddress 0xA0 .r), .run (.receiveByte true), .keepByte, .run (.receiveByte true), .keepByte,
      .run (.receiveByte false), .keepByte, .run .stop, .retBytes] := by decide

/-! ### The agents -/

/-- A wait reads CR and waits again while INT = 0. -/
theorem test_wait_again : todoOf (step { inFlight .start hostTurn' initS with todo := [.waitInt] }) = [.waitInt] := by decide

/-- A word placed for the fetch runs next. -/
theorem test_fetchWord : regs (step (State.reset.withFetchWord 12 0x812)) =
    some ((0x00, 0xF8, 0xFF, 0x12), .idle, none) := by decide

/-! ### Witnesses: for each statement with hypotheses, states and operands that meet them, clause by clause -/

/-- `s` with HOST's work and the turns of a script, then one more turn. -/
def scripted (s : State) (op : Instr) (rs : List Round) : State :=
  { s with todo := .run op :: [.retUnit], turns := scriptTurns rs ++ [hostTurn'] }

/-- A round of two turns in which nothing completes, then the completion. -/
def round2 (a d : Reply) (b : Byte) (lost : Bool) : Round := ⟨[hostTurn', idleTurn], turn a d b lost⟩

/-- A round that completes at once. -/
def round0 (a d : Reply) (b : Byte) (lost : Bool) : Round := ⟨[], turn a d b lost⟩

theorem test_witness_DecodeOfEncode :
    (Instr.wrCr 0xFF).wf = true ∧ encode (.wrCr 0xFF) = some [0xFF, 0x0C] ∧
    (Instr.cmdStop 0x94).wf = true ∧ encode (.cmdStop 0x94) = some [0x94] := by decide
theorem test_witness_EncodeOfDecode :
    decode [0xFF, 0x0F] = .ok (.reservedOff7 true 0xFF) ∧ decode [0x7F, 0x00] = .ok .rdBr ∧
    decode [0x00] = .ok (.cmdDisable 0x00) := ⟨rfl, rfl, rfl⟩
theorem test_witness_RdBrReturnsDivider :
    State.reset.fault = none ∧ ∃ t, exec (.wrBr 0xFF) State.reset = .next t := ⟨rfl, _, rfl⟩
theorem test_witness_WrBrStoresDivider : State.reset.fault = none := rfl
theorem test_witness_RdSrReturnsCodeAndPrescaler :
    ((halted .started 1 0xFF).fault = none ∧ (halted .started 1 0xFF).sr.code = 0b00001 ∧ (halted .started 1 0xFF).sr.psc = 1) ∧
    ∃ t, step { initS with todo := [.run (.cmdStart 0xA4)] } = .next t ∧ t.phase ≠ none := ⟨by decide, _, rfl, by decide⟩
theorem test_witness_WrSrSetsPrescalerOnly : State.reset.fault = none ∧ ((0xFD : Byte) = 0xFD ∨ (0xFD : Byte) = 0x01) := by
  decide
theorem test_witness_RdDrReturnsDataOrDraw :
    (State.reset.fault = none ∧ State.reset.phase = none ∧ ∃ t, exec .rdDr State.reset = .next t) ∧
    ((stopping true idleTurn).fault = none ∧ (stopping true idleTurn).phase = some (.stop true)) := ⟨⟨rfl, rfl, _, rfl⟩, rfl, rfl⟩
theorem test_witness_RdDr_afterAddress :
    (inFlight (.sla 0xA0) (turn .ack .ack 0 false) (halted .started 1 0xA0)).Inv ∧
    (∃ t, exec (phaseInstr (.sla 0xA0)) (inFlight (.sla 0xA0) (turn .ack .ack 0 false) (halted .started 1 0xA0)) = .next t ∧
      t.phase = none ∧ t.txn ≠ .lost) ∧
    (inFlight (.sla 0xFF) (turn .lost .ack 0 false) (halted .started 1 0xFF)).Inv ∧
    (∃ t, exec (phaseInstr (.sla 0xFF)) (inFlight (.sla 0xFF) (turn .lost .ack 0 false) (halted .started 1 0xFF)) = .next t ∧
      t.phase = none ∧ t.txn = .lost) := ⟨by decide, ⟨_, rfl, rfl, by decide⟩, by decide, ⟨_, rfl, rfl, rfl⟩⟩
theorem test_witness_RdDr_afterData :
    (inFlight (.dtx 0x00) (turn .ack .nak 0 false) (halted (.dataPhase .w .nak) 6 0x00)).Inv ∧
    (∃ t, exec (phaseInstr (.dtx 0x00)) (inFlight (.dtx 0x00) (turn .ack .nak 0 false) (halted (.dataPhase .w .nak) 6 0x00)) = .next t ∧
      t.phase = none) ∧
    (inFlight (.drx true) (turn .ack .nak 0xFF false) (halted (.dataPhase .r .ack) 10 0x00)).Inv ∧
    (∃ t, exec (phaseInstr (.drx true)) (inFlight (.drx true) (turn .ack .nak 0xFF false) (halted (.dataPhase .r .ack) 10 0x00)) = .next t ∧
      t.phase = none) := ⟨by decide, ⟨_, rfl, rfl⟩, by decide, ⟨_, rfl, rfl⟩⟩
theorem test_witness_RdDr_afterStop :
    (stopping false (turn .ack .ack 0 false)).Inv ∧
    ∃ t, exec (phaseInstr (.stop false)) (stopping false (turn .ack .ack 0 false)) = .next t ∧ t.phase = none :=
  ⟨by decide, _, rfl, rfl⟩
theorem test_witness_WrDrStoresOrFaults :
    ((stopping true idleTurn).fault = none ∧ (stopping true idleTurn).phase ≠ none) ∧
    (initS.fault = none ∧ initS.phase = none ∧ initS.cr.int = false) ∧
    ((halted .lost 7 0).fault = none ∧ (halted .lost 7 0).phase = none ∧ (halted .lost 7 0).cr.int = true) := by decide
theorem test_witness_WrDr_twice : ∃ t, exec (.wrDr 0xA1) (halted .started 1 0xFF) = .next t := ⟨_, rfl⟩
theorem test_witness_RdCrReturnsControlByte : State.reset.fault = none := rfl
theorem test_witness_ReservedOffsetsFault : initS.fault = none := rfl
theorem test_witness_WrCrFollowsItsRule :
    ((stopping true idleTurn).fault = none ∧ (stopping true idleTurn).phase ≠ none) ∧
    (initS.fault = none ∧ initS.phase = none ∧ decodeCommand 0xFF = .stopStart ∧ decodeCommand 0x24 = .startNoclr ∧
      decodeCommand 0x14 = .stopNoclr ∧ decodeCommand 0xFB = .disable ∧ decodeCommand 0x4F = .enable ∧
      decodeCommand 0xEF = .start ∧ decodeCommand 0x94 = .stop ∧ decodeCommand 0x84 = .contNak ∧
      decodeCommand 0xCF = .contAck) ∧
    ((halted (.dataPhase .r .ack) 10 0).fault = none ∧ (halted (.dataPhase .r .ack) 10 0).phase = none) := by decide
theorem test_witness_WrCr_everyTxn : ∀ txn : Txn,
    { initS with txn := txn }.fault = none ∧ { initS with txn := txn }.phase = none ∧ { initS with txn := txn }.txn = txn :=
  fun _ => ⟨rfl, rfl, rfl⟩
theorem test_witness_EnableAndDisableLaunchNothing :
    (initS.fault = none ∧ initS.phase = none ∧ initS.txn = .idle) ∧
    ((halted .lost 7 0).fault = none ∧ (halted .lost 7 0).phase = none ∧ (halted .lost 7 0).txn ≠ .idle) := by decide
theorem test_witness_CmdStartLaunches :
    (initS.fault = none ∧ initS.phase = none ∧ (initS.txn = .idle ∨ initS.txn = .lost)) ∧
    (midTransaction (halted (.dataPhase .r .nak) 11 0).txn = true ∧ (halted (.dataPhase .r .nak) 11 0).txn ≠ .dataPhase .r .ack ∧
      (halted (.dataPhase .r .nak) 11 0).fault = none ∧ (halted (.dataPhase .r .nak) 11 0).phase = none) ∧
    ((halted (.dataPhase .r .ack) 10 0).txn = .dataPhase .r .ack ∧ (halted (.dataPhase .r .ack) 10 0).fault = none ∧
      (halted (.dataPhase .r .ack) 10 0).phase = none) := by decide
theorem test_witness_CmdStopLaunches : (halted .lost 7 0).fault = none ∧ (halted .lost 7 0).phase = none := by decide
theorem test_witness_CmdContLaunches :
    ((halted .started 1 0xFF).fault = none ∧ (halted .started 1 0xFF).phase = none ∧ (halted .started 1 0xFF).txn = .started) ∧
    ((halted (.dataPhase .w .nak) 6 0).phase = none ∧ ∃ a, (halted (.dataPhase .w .nak) 6 0).txn = .dataPhase .w a) ∧
    ((halted (.addrSent .r .ack) 8 0).phase = none ∧ (halted (.addrSent .r .ack) 8 0).txn = .addrSent .r .ack) ∧
    ((halted (.addrSent .w .nak) 4 0).phase = none ∧ ∃ d, (halted (.addrSent .w .nak) 4 0).txn = .addrSent d .nak) ∧
    ((Instr.cmdContNak 0x84 = .cmdContNak 0x84 ∧ Command.contNak = .contNak)) :=
  ⟨by decide, ⟨rfl, _, rfl⟩, by decide, ⟨rfl, _, rfl⟩, by decide⟩
theorem test_witness_UnadmittedCommandsFault :
    (initS.fault = none ∧ initS.phase = none) ∧
    ((stopping false idleTurn).fault = none ∧ (stopping false idleTurn).phase ≠ none) := by decide
theorem test_witness_PhStartCompletes :
    (initS.fault = none ∧ initS.phase = none) ∧
    ((inFlight .start (turn .lost .lost 0 true) initS).phase = some .start ∧
      ((inFlight .start (turn .lost .lost 0 true) initS).turn .start).permits = true) ∧
    ((inFlight .start idleTurn initS).phase = some .start ∧ ((inFlight .start idleTurn initS).turn .start).permits = false) := by
  decide
theorem test_witness_PhRstartCompletes :
    (inFlight .rstart (turn .ack .ack 0 false) (halted .started 2 0)).phase = some .rstart ∧
    ((inFlight .rstart (turn .ack .ack 0 false) (halted .started 2 0)).turn .rstart).permits = true := by decide
theorem test_witness_PhSlaWCompletes : ∀ r : Reply,
    (0xFE : Byte).bit 0 = false ∧ (inFlight (.sla 0xFE) (turn r .ack 0 false) (halted .started 1 0xFE)).phase = some (.sla 0xFE) ∧
    ((inFlight (.sla 0xFE) (turn r .ack 0 false) (halted .started 1 0xFE)).turn (.sla 0xFE)).permits = true ∧
    ((inFlight (.sla 0xFE) (turn r .ack 0 false) (halted .started 1 0xFE)).turn (.sla 0xFE)).addrReply = r := by
  intro r; cases r <;> decide
theorem test_witness_PhSlaRCompletes : ∀ r : Reply,
    (0xFF : Byte).bit 0 = true ∧ (inFlight (.sla 0xFF) (turn r .ack 0 false) (halted .started 1 0xFF)).phase = some (.sla 0xFF) ∧
    ((inFlight (.sla 0xFF) (turn r .ack 0 false) (halted .started 1 0xFF)).turn (.sla 0xFF)).permits = true ∧
    ((inFlight (.sla 0xFF) (turn r .ack 0 false) (halted .started 1 0xFF)).turn (.sla 0xFF)).addrReply = r := by
  intro r; cases r <;> decide
theorem test_witness_PhDataTxCompletes : ∀ r : Reply,
    (inFlight (.dtx 0x00) (turn .ack r 0 false) (halted (.addrSent .w .ack) 3 0x00)).phase = some (.dtx 0x00) ∧
    ((inFlight (.dtx 0x00) (turn .ack r 0 false) (halted (.addrSent .w .ack) 3 0x00)).turn (.dtx 0x00)).permits = true ∧
    ((inFlight (.dtx 0x00) (turn .ack r 0 false) (halted (.addrSent .w .ack) 3 0x00)).turn (.dtx 0x00)).dataReply = r := by
  intro r; cases r <;> decide
theorem test_witness_PhDataRxAckCompletes :
    (inFlight (.drx true) (turn .ack .ack 0xFF true) (halted (.dataPhase .r .ack) 10 0)).phase = some (.drx true) ∧
    ((inFlight (.drx true) (turn .ack .ack 0xFF true) (halted (.dataPhase .r .ack) 10 0)).turn (.drx true)).permits = true := by
  decide
theorem test_witness_PhDataRxNakCompletes : ∀ lost : Bool,
    (inFlight (.drx false) (turn .ack .ack 0xFF lost) (halted (.addrSent .r .ack) 8 0)).phase = some (.drx false) ∧
    ((inFlight (.drx false) (turn .ack .ack 0xFF lost) (halted (.addrSent .r .ack) 8 0)).turn (.drx false)).permits = true ∧
    ((inFlight (.drx false) (turn .ack .ack 0xFF lost) (halted (.addrSent .r .ack) 8 0)).turn (.drx false)).readLost = lost := by
  decide
theorem test_witness_PhStopCompletes : ∀ silent : Bool,
    (stopping silent (turn .ack .ack 0 false)).phase = some (.stop silent) ∧
    ((stopping silent (turn .ack .ack 0 false)).turn (.stop silent)).permits = true ∧
    (initS.phase = none ∧ decodeCommand 0x94 = .stop) := by decide
theorem test_witness_PhStop_launch : ∃ t, exec (.wrCr 0x94) initS = .next t := ⟨_, rfl⟩
theorem test_witness_PhaseWaitsForItsEnvironment :
    ((stopping true idleTurn).phase = some (.stop true) ∧ ((stopping true idleTurn).turn (.stop true)).permits = false) ∧
    (State.reset.fault = none ∧ State.reset.phase ≠ some .start) := by decide
theorem test_witness_PrimitivesExpand :
    (State.reset.fault = none ∧ State.reset.initialized = false ∧ 1 ≠ 0) ∧ initS.initialized = true ∧
    (halted .started 1 0).txn = .started ∧ (halted (.dataPhase .w .nak) 6 0).txn = .dataPhase .w .nak ∧
    (halted (.dataPhase .r .ack) 10 0).txn = .dataPhase .r .ack := by decide
theorem test_witness_ContractViolationsFault :
    (initS.fault = none ∧ initS.initialized = true) ∧ State.reset.initialized = false ∧ initS.txn ≠ .started ∧
    (initS.txn ≠ .addrSent .w .ack ∧ initS.txn ≠ .dataPhase .w .ack ∧ initS.txn ≠ .dataPhase .w .nak) ∧
    (initS.txn ≠ .addrSent .r .ack ∧ initS.txn ≠ .dataPhase .r .ack) := by decide
theorem test_witness_SequencesExpand :
    initS.fault = none ∧ ([0x4F] : List Byte) ≠ [] ∧ ([0x4F] : List Byte).length ≤ Config.pageSize :=
  ⟨rfl, by decide, Nat.one_le_two_pow⟩
theorem test_witness_SequenceErrorsAreValues :
    initS.fault = none ∧ (([] : List Byte).length = 0 ∨ Config.pageSize < ([] : List Byte).length) ∧
    ((List.replicate (Config.pageSize + 1) (0 : Byte)).length = 0 ∨
      Config.pageSize < (List.replicate (Config.pageSize + 1) (0 : Byte)).length) :=
  ⟨rfl, .inl rfl, .inr (by simp)⟩
theorem test_witness_DescribeNamesEveryCode :
    State.reset.fault = none ∧ (0x5F : Byte) &&& 0xF8 = 0x58 ∧ ((0x07 : Byte) &&& 0xF8 = 0x00) ∧
    ((0x60 : Byte) ≤ (0x60 : Byte) &&& 0xF8) := by decide
theorem test_witness_InitializeRuns :
    ({ State.reset with todo := [.run (.initializeBus 0)] }.fault = none ∧
      { State.reset with todo := [.run (.initializeBus 0)] }.phase = none ∧
      { State.reset with todo := [.run (.initializeBus 0)] }.initialized = false ∧
      { State.reset with todo := [.run (.initializeBus 0)] }.todo = .run (.initializeBus 0) :: []) ∧
    (initS.fault = none ∧ initS.initialized = true) := by decide
theorem test_witness_StartRuns :
    (scripted (halted .lost 7 0xFF) .start [round2 .lost .lost 0 true]).Inv ∧
    (halted .lost 7 0xFF).initialized = true ∧ (halted .lost 7 0xFF).txn ≠ .dataPhase .r .ack ∧
    (scripted (halted .lost 7 0xFF) .start [round2 .lost .lost 0 true]).turns =
      scriptTurns [round2 .lost .lost 0 true] ++ [hostTurn'] ∧
    roundOk (round2 .lost .lost 0 true) = true := by decide
theorem test_witness_StopRuns :
    (scripted initS .stop [round0 .ack .ack 0 false]).todo = .run .stop :: [.retUnit] ∧
    (scripted initS .stop [round0 .ack .ack 0 false]).phase = none ∧ roundOk (round0 .ack .ack 0 false) = true := by decide
theorem test_witness_StatusRuns :
    { State.reset with todo := [.run .status] }.fault = none ∧ { State.reset with todo := [.run .status] }.phase = none ∧
    { State.reset with todo := [.run .status] }.todo = .run .status :: [] := by decide
theorem test_witness_TransmitAddressRuns : ∀ r : Reply,
    (scripted (halted .started 1 0xFF) (.transmitAddress 0xFF .r) [round2 r .ack 0 false]).Inv ∧
    (halted .started 1 0xFF).txn = .started ∧ roundOk (round2 r .ack 0 false) = true := by
  intro r; cases r <;> decide
theorem test_witness_TransmitByteRuns : ∀ r : Reply,
    (scripted (halted (.dataPhase .w .nak) 6 0xFF) (.transmitByte 0x00) [round2 .ack r 0 false]).Inv ∧
    ((halted (.dataPhase .w .nak) 6 0xFF).txn = .addrSent .w .ack ∨ (halted (.dataPhase .w .nak) 6 0xFF).txn = .dataPhase .w .ack ∨
      (halted (.dataPhase .w .nak) 6 0xFF).txn = .dataPhase .w .nak) ∧ roundOk (round2 .ack r 0 false) = true := by
  intro r; cases r <;> decide
theorem test_witness_ReceiveByteRuns : ∀ lost : Bool,
    (scripted (halted (.dataPhase .r .ack) 10 0) (.receiveByte false) [round2 .ack .ack 0xFF lost]).initialized = true ∧
    ((halted (.dataPhase .r .ack) 10 0).txn = .addrSent .r .ack ∨ (halted (.dataPhase .r .ack) 10 0).txn = .dataPhase .r .ack) ∧
    roundOk (round2 .ack .ack 0xFF lost) = true := by decide
theorem test_witness_ReadByteRuns :
    (scripted initS (.readByte 0xFF) (List.replicate 7 (round2 .ack .nak 0x4F false))).Inv ∧
    (scripted initS (.readByte 0xFF) (List.replicate 7 (round2 .ack .nak 0x4F false))).turns =
      scriptTurns (List.replicate 7 (round2 .ack .nak 0x4F false)) ++ [hostTurn'] ∧
    (List.replicate 7 (round2 .ack .nak 0x4F false)).all roundOk = true ∧
    (round2 .ack .nak 0x4F false).last.addrReply = .ack ∧ (round2 .ack .nak 0x4F false).last.dataReply ≠ .lost ∧
    (round2 .ack .nak 0x4F false).last.readLost = false := by decide
theorem test_witness_PollEndsExactlyOnAck :
    (scripted (halted .lost 7 0) .waitUntilWriteComplete
      (attemptRounds [(round2 .ack .ack 0 false, round0 .lost .ack 0 false)] ++ List.replicate 2 (round0 .ack .ack 0 false))).Inv ∧
    (∀ r ∈ [Reply.nak, .lost], attemptsFail [(round2 .ack .ack 0 false, round0 r .ack 0 false)] = true ∧
      (attemptReplies [(round2 .ack .ack 0 false, round0 r .ack 0 false)]).getLast? = some r) ∧
    attemptsFail [] = true ∧ roundOk (round0 .ack .ack 0 false) = true ∧
    (round0 .ack .ack 0 false).last.addrReply = .ack := by decide
theorem test_witness_WriteByteRuns :
    (scripted (halted (.addrSent .w .ack) 3 0xA0) (.writeByte 0xFF 0x00)
      (List.replicate 5 (round2 .ack .nak 0 false) ++ attemptRounds [] ++ List.replicate 2 (round2 .ack .nak 0 false))).Inv ∧
    (List.replicate 7 (round2 .ack .nak 0 false)).all roundOk = true ∧
    (round2 .ack .nak 0 false).last.addrReply = .ack ∧ (round2 .ack .nak 0 false).last.dataReply ≠ .lost := by decide
theorem test_witness_WritePageRuns :
    (scripted initS (.writePage 0xFF [0x4F])
      (List.replicate 3 (round2 .ack .nak 0 false) ++ [round0 .ack .ack 0 false] ++ List.replicate 1 (round0 .ack .ack 0 false) ++
        attemptRounds [] ++ List.replicate 2 (round2 .ack .nak 0 false))).Inv ∧
    [round0 .ack .ack 0 false].length = ([0x4F] : List Byte).length ∧ ([0x4F] : List Byte).length ≤ Config.pageSize ∧
    (∀ r ∈ [round0 .ack .ack 0 false], r.last.dataReply ≠ .lost) ∧ (round2 .ack .nak 0 false).last.dataReply ≠ .lost :=
  ⟨by decide, rfl, Nat.one_le_two_pow, by decide, by decide⟩
theorem test_witness_SequentialReadRuns :
    (scripted initS (.sequentialRead 0xFF 1)
      (List.replicate 5 (round2 .ack .ack 0 false) ++ [round0 .ack .ack 0x4F false] ++ [round2 .ack .ack 0 false])).Inv ∧
    [round0 .ack .ack 0x4F false] ≠ [] ∧ [round0 .ack .ack 0x4F false].length = 1 ∧
    (∀ r ∈ [round0 .ack .ack 0x4F false], r.last.readLost = false) := by decide
theorem test_witness_ReadByteWithoutDeviceFaults :
    (scripted (halted .lost 7 0) (.readByte 0x00) [round2 .ack .ack 0 false, round2 .nak .ack 0 false]).Inv ∧
    roundOk (round2 .nak .ack 0 false) = true ∧ (round2 .nak .ack 0 false).last.addrReply = .nak := by decide
theorem test_witness_BusyWaitGoesOnForever :
    ({ inFlight .start idleTurn initS with todo := [.waitInt], turns := [idleTurn, hostTurn'] }.phase = some .start ∧
      { inFlight .start idleTurn initS with todo := [.waitInt] }.cr.int = false ∧
      ∀ w ∈ [idleTurn, hostTurn'], grants w = false) ∧
    ((stopping true idleTurn).cr.sto = true ∧ (stopping true idleTurn).phase = some (.stop true)) := by decide
theorem test_witness_FaultsAreTerminalAndPrecise :
    ({ initS with fault := some .writeDuringPhase }.fault = some .writeDuringPhase) ∧
    ∃ t, exec (.wrDr 0x00) initS = .next t ∧ t.fault = some .dataWriteWhileFlagClear := ⟨rfl, _, rfl, rfl⟩
theorem test_witness_StepRunsDecodedInstruction :
    (initS.fault = none ∧ initS.phase = none ∧ decode [0xFF, 0x08] = .ok (.wrBr 0xFF) ∧ (Instr.wrBr 0xFF).wf = true) ∧
    ((inFlight .start hostTurn' initS).phase = some .start ∧ ((inFlight .start hostTurn' initS).turn .start).seqFirst = false) ∧
    ((inFlight .start idleTurn initS).phase = some .start ∧ ((inFlight .start idleTurn initS).turn .start).seqFirst = true) ∧
    decodeTableWord 12 0xFFF = some (.reservedOff7 true 0xFF) := ⟨⟨rfl, rfl, rfl, rfl⟩, ⟨rfl, rfl⟩, ⟨rfl, rfl⟩, rfl⟩
theorem test_witness_InvKeptByEveryStep :
    (stopping false (turn .ack .ack 0 false)).Inv ∧ ∃ t, step (stopping false (turn .ack .ack 0 false)) = .next t :=
  ⟨by decide, _, rfl⟩
theorem test_witness_TraceStaysLegal :
    ({ stopping false (turn .ack .ack 0 false) with trace := [.start] }.Inv ∧
      { stopping false (turn .ack .ack 0 false) with trace := [.start] }.TraceInv) ∧
    ∃ t, step { stopping false (turn .ack .ack 0 false) with trace := [.start] } = .next t := ⟨by decide, _, rfl⟩
theorem test_witness_TraceGrowsByCompletionsOnly :
    ∃ t, step (inFlight (.sla 0xA0) (turn .ack .ack 0 false) (halted .started 1 0xA0)) = .next t := ⟨_, rfl⟩
theorem test_witness_InFlightStateIsFrozen :
    (inFlight .start hostTurn' initS).phase = some .start ∧ ∃ t, step (inFlight .start hostTurn' initS) = .next t := ⟨rfl, _, rfl⟩
theorem test_witness_TransactionOrder :
    (inFlight (.sla 0xA0) (turn .ack .ack 0 false) (halted .started 1 0xA0)).Inv ∧
    ∃ t, step (inFlight (.sla 0xA0) (turn .ack .ack 0 false) (halted .started 1 0xA0)) = .next t ∧
      t.txn ≠ (inFlight (.sla 0xA0) (turn .ack .ack 0 false) (halted .started 1 0xA0)).txn := ⟨by decide, _, rfl, by decide⟩
theorem test_witness_SingleMasterNeverLoses :
    (Instr.rdCr.wf = true ∧
      (∀ k, (inFlight .start (turn .nak .nak 0xFF false) (halted .lost 7 0)).phase = some k →
        singleMaster k ((inFlight .start (turn .nak .nak 0xFF false) (halted .lost 7 0)).turn k) = true) ∧
      ∃ t, exec .rdCr (inFlight .start (turn .nak .nak 0xFF false) (halted .lost 7 0)) = .next t ∧ t.txn = .lost) ∧
    ((inFlight .start (turn .nak .nak 0xFF false) (halted .lost 7 0)).fault = none ∧
      (inFlight .start (turn .nak .nak 0xFF false) (halted .lost 7 0)).phase = some .start ∧
      singleMaster .start ((inFlight .start (turn .nak .nak 0xFF false) (halted .lost 7 0)).turn .start) = true ∧
      ((inFlight .start (turn .nak .nak 0xFF false) (halted .lost 7 0)).turn .start).seqFirst = true) :=
  ⟨⟨rfl, by rintro _ ⟨⟩; rfl, _, rfl, rfl⟩, rfl, rfl, rfl, rfl⟩
theorem test_witness_BusOwnershipFollowsTxn :
    (initS.fault = none ∧ initS.phase = none ∧ Launches 0x94 initS (.stop true)) ∧
    (∃ t, step (stopping true (turn .ack .ack 0 false)) = .next t ∧
      ownsBus (stopping true (turn .ack .ack 0 false)).txn = true ∧ ownsBus t.txn = false) ∧
    ({ initS with todo := [.run (.cmdStop 0x94)] }.Inv ∧
      ∃ t, step { initS with todo := [.run (.cmdStop 0x94)] } = .next t ∧
        ownsBus { initS with todo := [.run (.cmdStop 0x94)] }.txn = false ∧ ownsBus t.txn = true) :=
  ⟨⟨rfl, rfl, _, rfl, rfl⟩, ⟨_, rfl, rfl, rfl⟩, by decide, _, rfl, rfl, rfl⟩
theorem test_witness_BusOwnership_start :
    (inFlight .start (turn .ack .ack 0 false) (halted .lost 7 0)).Inv ∧
    ∃ t, step (inFlight .start (turn .ack .ack 0 false) (halted .lost 7 0)) = .next t ∧
      ownsBus (halted .lost 7 0).txn = false ∧ ownsBus t.txn = true := ⟨by decide, _, rfl, rfl, rfl⟩
theorem test_witness_TraceIsWriteOnly :
    (inFlight (.sla 0xA0) (turn .ack .ack 0 false) (halted .started 1 0xA0)).turns ≠ [] := by decide

end Sys2Proof.Tests
end

section
/-! Turns in which the phase in flight does not complete, and the busy-waits HOST spends in them (R10, R199). -/

namespace Sys2Proof.Machine

theorem turn_of_cons {s : State} {w : Turn} {rest : List Turn} (k : Phase) (h : s.turns = w :: rest) :
    s.turn k = w := by
  simp [State.turn, h]

/-- Where ENV does not permit the phase in flight, SEQ's step only uses up the turn (R122). -/
theorem exec_phaseInstr_of_not_permits {s : State} {k : Phase} (hf : s.fault = none) (hp : s.phase = some k)
    (hn : (s.turn k).permits = false) : exec (phaseInstr k) s = .next s.nextTurn := by
  obtain ⟨effect, he⟩ := exec_phaseInstr k
  simp [he, seqComplete, unlessFaulted_of_none hf, hp, hn]

/-- A turn that does not grant is lost on SEQ or is HOST's. -/
theorem step_of_not_grants {s : State} {k : Phase} (hf : s.fault = none) (hp : s.phase = some k)
    (hg : grants (s.turn k) = false) : step s = .next s.nextTurn ∨ step s = hostMove s.nextTurn := by
  rw [step_inFlight hf hp]
  cases hq : (s.turn k).seqFirst with
  | false => exact .inr (if_neg Bool.false_ne_true)
  | true =>
    have hn : (s.turn k).permits = false := by simpa [grants, hq] using hg
    exact .inl ((if_pos rfl).trans (exec_phaseInstr_of_not_permits hf hp hn))

/-- `op` is a wait whose condition the flags in `c` do not meet. -/
def Waiting (op : HostOp) (c : Cr) : Prop := (op = .waitInt ∧ c.int = false) ∨ (op = .waitSto ∧ c.sto = true)

/-- A poll that fails gives HOST the value of CR and puts the wait taken from HOST's list back. -/
theorem pollCr_of_false {s : State} {c : Byte → Bool} {op : HostOp} {more : List HostOp}
    (hc : c s.cr.toByte = false) (ht : s.todo = op :: more) :
    pollCr c op { s with todo := more } = .next (s.returns (.byte s.cr.toByte)) := by
  simp [pollCr, hc, State.readReg, State.returns, State.push, ← ht]

/-- HOST's move in a wait whose condition is not met leaves the same wait to do. -/
theorem hostMove_of_waiting {s : State} {op : HostOp} {more : List HostOp} (hw : Waiting op s.cr)
    (ht : s.todo = op :: more) : hostMove s = .next (s.returns (.byte s.cr.toByte)) := by
  obtain ⟨rfl, hint⟩ | ⟨rfl, hsto⟩ := hw
  · rw [hostMove, ht]
    exact pollCr_of_false ((toByte_bit7 s.cr).trans hint) ht
  · rw [hostMove, ht]
    exact pollCr_of_false (by rw [toByte_bit4, hsto]; rfl) ht

/-- One turn of a wait whose phase does not complete changes HOST's value at most. -/
theorem step_of_waiting {s : State} {k : Phase} {op : HostOp} {more : List HostOp} (hf : s.fault = none)
    (hp : s.phase = some k) (hw : Waiting op s.cr) (ht : s.todo = op :: more) (hg : grants (s.turn k) = false) :
    ∃ v, step s = .next (s.nextTurn.returns v) := by
  obtain h | h := step_of_not_grants hf hp hg
  · exact ⟨s.result, h⟩
  · exact ⟨_, h.trans (hostMove_of_waiting (s := s.nextTurn) hw ht)⟩

/-- Settles O48, by induction on the turns: each is one step that leaves the premises as they were. -/
theorem busyWaitGoesOnForever : Obligations.BusyWaitGoesOnForever := by
  intro s k op more ws rest hf hp hw ht hturns hg
  induction ws generalizing s with
  | nil => exact ⟨s.result, by rw [← show s.turns = rest from hturns]; rfl⟩
  | cons w ws ih =>
    obtain ⟨hgw, hgws⟩ := List.forall_mem_cons.mp hg
    obtain ⟨v, hstep⟩ := step_of_waiting hf hp hw ht ((turn_of_cons k hturns).symm ▸ hgw)
    have hrest : (s.nextTurn.returns v).turns = ws ++ rest := by simp [hturns]
    obtain ⟨u, hrun⟩ := ih (s.nextTurn.returns v) hf hp hw ht hrest hgws
    have hdraws : s.draws + 1 + ws.length = s.draws + (ws.length + 1) := by omega
    exact ⟨u, by rw [List.length_cons, runSteps_succ hstep, hrun, ← hdraws]; rfl⟩

end Sys2Proof.Machine
end

section
/-! The invariants of the state record (R43): what they come to at rest and in flight, and that every move keeps them. -/

namespace Sys2Proof.Machine

/-! ### The invariants, at rest and in flight -/

/-- A STOP is the one phase that R79 lets be in flight in Stopped. -/
theorem stopped_iff_stopInFlight {txn : Txn} {k : Phase} (h : phaseFits txn (some k) = true) :
    txn = .stopped ↔ stopInFlight (some k) = true := by
  cases k with
  | stop silent => simpa [phaseFits, stopInFlight] using h
  | start | rstart | sla _ | dtx _ | drx _ =>
    have : txn ≠ .stopped := by rintro rfl; cases h
    simpa [stopInFlight] using this

theorem midTransaction_or_lost (txn : Txn) :
    (midTransaction txn || txn == .lost) = true ↔ txn ≠ .idle ∧ txn ≠ .stopped := by
  cases txn <;> simp [midTransaction, ownsBus]

/-- The invariants with no phase in flight. -/
theorem inv_iff_of_rest {s : State} (hp : s.phase = none) :
    s.Inv ↔ s.txn ≠ .stopped ∧ s.cr.sto = false ∧ (s.cr.int = false ↔ s.txn = .idle) ∧
      codeTxn s.sr.code = some s.txn := by
  simp only [State.Inv, invA, invB, invC, invD, invE, invF, invPhase, invOperand, hp, midTransaction_or_lost,
    stopInFlight, phaseFits, operandInDr]
  cases s.cr.int <;> cases s.cr.sto <;> simp <;> tauto

/-- The invariants with the phase `k` in flight. -/
theorem inv_iff_of_inFlight {s : State} {k : Phase} (hp : s.phase = some k) :
    s.Inv ↔ s.cr.int = false ∧ s.cr.en = true ∧ s.cr.sto = stopInFlight (some k) ∧
      phaseFits s.txn (some k) = true ∧ operandInDr s.dr (some k) = true := by
  have hd := stopped_iff_stopInFlight (txn := s.txn) (k := k)
  have he : s.cr.sto = stopInFlight (some k) ↔ (s.cr.sto = true ↔ stopInFlight (some k) = true) := Bool.eq_iff_iff
  simp only [State.Inv, invA, invB, invC, invD, invE, invF, invPhase, invOperand, hp, he, reduceCtorEq, not_false_eq_true,
    ne_eq, forall_const, false_imp_iff, implies_true, true_and]
  tauto

/-- The invariants speak of the block's part of a state only. -/
theorem State.Inv.of_block_eq {t u : State} (h : t.block = u.block) (hu : u.Inv) : t.Inv := by
  have ht : t.block.Inv := by rw [h]; exact hu
  exact ht

/-! ### Every move keeps them -/

/-- CMD_START launches a START or a repeated START (R79). -/
theorem startPhase_cases {txn : Txn} {k : Phase} (h : startPhase txn = some k) : k = .start ∨ k = .rstart := by
  unfold startPhase at h
  split at h <;> cases h <;> simp

/-- A continue command launches the address frame in DR, the data byte in DR, or a reception (R79). -/
theorem contPhase_cases {txn : Txn} {dr : Byte} {acken : Bool} {k : Phase} (h : contPhase txn dr acken = some k) :
    (k = .sla dr ∧ txn = .started) ∨ (k = .dtx dr ∧ mayTransmit txn = true) ∨
      (k = .drx acken ∧ mayReceive txn = true) := by
  unfold contPhase at h
  split at h <;> cases h <;> simp [mayTransmit, mayReceive]

/-- A launched phase meets the invariants: no STOP, selected by R79, its operand in DR. -/
theorem inv_launch {s : State} {k : Phase} {acken sta : Bool}
    (hk : startPhase s.txn = some k ∨ contPhase s.txn s.dr acken = some k) :
    (s.launch k ⟨false, acken, sta, false, true⟩).Inv := by
  rw [inv_iff_of_inFlight (k := k) rfl]
  obtain hk | hk := hk
  · obtain rfl | rfl := startPhase_cases hk <;> simp [stopInFlight, phaseFits, operandInDr, hk]
  · obtain ⟨rfl, ht⟩ | ⟨rfl, ht⟩ | ⟨rfl, ht⟩ := contPhase_cases hk <;>
      simp [stopInFlight, phaseFits, operandInDr, ht]

/-- A phase other than STOP completes with the code of its event, in the event's transaction state (R138). -/
theorem codeTxn_eventCode {k : Phase} {e : Event} (hk : Completes k e) :
    codeTxn (statusCode (eventCode e)) = some (eventTxn e) := by
  cases hk with
  | start | rstart | drxAck _ | drxNak _ | drxLost _ => rfl
  | dtx byte r => cases r <;> rfl
  | addr frame r =>
    cases r with
    | ack => cases hb : frame.bit 0 <;> simp only [eventCode, eventTxn, frameDir, hb] <;> rfl
    | nak => cases hb : frame.bit 0 <;> simp only [eventCode, eventTxn, frameDir, hb] <;> rfl
    | lost => rfl

/-- Idle and Stopped are entered by no completion but a STOP's. -/
theorem eventTxn_of_completes {k : Phase} {e : Event} (hk : Completes k e) :
    eventTxn e ≠ .idle ∧ eventTxn e ≠ .stopped ∧ stopInFlight (some k) = false := by
  cases hk with
  | start | rstart | drxAck _ | drxNak _ | drxLost _ => simp [eventTxn, stopInFlight]
  | addr _ r | dtx _ r => cases r <;> simp [eventTxn, stopInFlight]

theorem inv_complete {s : State} {k : Phase} {e : Event} (d : Byte) (hs : s.Inv) (hp : s.phase = some k)
    (hk : Completes k e) : State.Inv { s.complete (eventCode e) (eventTxn e) e with dr := d } := by
  obtain ⟨-, -, hsto, -, -⟩ := (inv_iff_of_inFlight hp).mp hs
  obtain ⟨hidle, hstopped, hstop⟩ := eventTxn_of_completes hk
  rw [inv_iff_of_rest rfl]
  simp [hsto, hstop, hidle, hstopped, codeTxn_eventCode hk]

theorem inv_completeStop {s : State} {silent : Bool} (hs : s.Inv) (hp : s.phase = some (.stop silent)) :
    (s.completeStop silent).Inv := by
  obtain ⟨hint, -, -, -, -⟩ := (inv_iff_of_inFlight hp).mp hs
  rw [inv_iff_of_rest rfl]
  simp [hint, codeTxn, statusCode]

/-- The invariants at rest do not mention DR. -/
theorem inv_setDr {s : State} (d : Byte) (hs : s.Inv) (hp : s.phase = none) : State.Inv { s with dr := d } := by
  rw [inv_iff_of_rest (s := { s with dr := d }) hp]
  exact (inv_iff_of_rest hp).mp hs

/-- The invariants at rest mention neither ACKEN nor EN, and ask for STO = 0. -/
theorem inv_setCr {s : State} (acken en : Bool) (hs : s.Inv) (hp : s.phase = none) :
    State.Inv { s with cr := ⟨s.cr.int, acken, false, false, en⟩ } := by
  obtain ⟨hstopped, -, hint, hcode⟩ := (inv_iff_of_rest hp).mp hs
  rw [inv_iff_of_rest (s := { s with cr := ⟨s.cr.int, acken, false, false, en⟩ }) hp]
  exact ⟨hstopped, rfl, hint, hcode⟩

theorem inv_launchStop (s : State) (silent acken : Bool) :
    ({ s with txn := .stopped }.launch (.stop silent) ⟨false, acken, false, true, true⟩).Inv := by
  rw [inv_iff_of_inFlight rfl]
  exact ⟨rfl, rfl, rfl, rfl, rfl⟩

/-- Every move keeps the invariants. -/
theorem inv_of_move {s t : State} (hs : s.Inv) (h : Move s t) : t.Inv := by
  cases h with
  | none h | raise _ h | setBr _ h | setPsc _ h | setInitialized h => exact .of_block_eq h hs
  | setDr d hp _ h => exact .of_block_eq h (inv_setDr d hs hp)
  | setCr acken en hp _ h => exact .of_block_eq h (inv_setCr acken en hs hp)
  | launch _ _ _ _ hk h => exact .of_block_eq h (inv_launch hk)
  | launchStop acken _ h => exact .of_block_eq h (inv_launchStop s _ acken)
  | complete _ _ d hp hk h => exact .of_block_eq h (inv_complete d hs hp hk)
  | completeStop _ hp h => exact .of_block_eq h (inv_completeStop hs hp)

/-- Settles O51: a step is a move, and each move keeps the invariants. -/
theorem invKeptByEveryStep : Obligations.InvKeptByEveryStep := by
  intro s t hs h
  obtain ⟨-, hm⟩ := step_move h
  exact inv_of_move hs hm

/-- Settles O53: the reset state is at rest in Idle with the code NO_INFO and an empty trace. -/
theorem resetMeetsInvariants : Obligations.ResetMeetsInvariants := by
  have hinv : State.reset.Inv := (inv_iff_of_rest rfl).mpr (by decide)
  have htrace : State.reset.TraceInv := by decide
  exact ⟨hinv, htrace⟩

/-- Settles O54: four reads by their registers, and HOST's list is empty, so its move changes nothing. -/
theorem resetState : Obligations.ResetState := by
  have hstep : step State.reset = .next State.reset := step_idle rfl rfl
  exact ⟨rfl, rfl, rfl, rfl, rfl, rfl, rfl, rfl, rfl, hstep⟩

end Sys2Proof.Machine
end

section
/-! Bus ownership (R42, R121, R134): where a move launches a phase and where it changes txn. -/

namespace Sys2Proof.Machine

theorem ownsBus_iff (txn : Txn) :
    ownsBus txn = true ↔
      txn = .started ∨ (∃ d a, txn = .addrSent d a) ∨ (∃ d a, txn = .dataPhase d a) ∨ txn = .stopped := by
  cases txn <;> simp [ownsBus]

theorem idle_or_lost_of_not_ownsBus {txn : Txn} (h : ownsBus txn = false) : txn = .idle ∨ txn = .lost :=
  (stopSilent_iff txn).mp (by rw [stopSilent, h]; rfl)

theorem State.phase_of_block_eq {t u : State} (h : t.block = u.block) : t.phase = u.phase := by
  have hb : t.block.phase = u.block.phase := congrArg State.phase h
  exact hb

theorem State.txn_of_block_eq {t u : State} (h : t.block = u.block) : t.txn = u.txn := by
  have hb : t.block.txn = u.block.txn := congrArg State.txn h
  exact hb

/-- What a move does to txn: Stopped at the launch of a STOP, the state of its event where a phase
completes, Idle where a STOP completes (R121, R138). -/
theorem txn_cases_of_move {s t : State} (h : Move s t) :
    t.txn = s.txn ∨
      (t.txn = .stopped ∧ t.phase = some (.stop (stopSilent s.txn))) ∨
      (∃ k e, s.phase = some k ∧ Completes k e ∧ t.phase = none ∧ t.txn = eventTxn e) ∨
      (s.phase ≠ none ∧ t.phase = none ∧ t.txn = .idle) := by
  cases h with
  | none h | raise _ h | setBr _ h | setPsc _ h | setDr _ _ _ h | setInitialized h | setCr _ _ _ _ h
  | launch _ _ _ _ _ h => exact .inl (State.txn_of_block_eq h :)
  | launchStop _ _ h => exact .inr (.inl ⟨(State.txn_of_block_eq h :), (State.phase_of_block_eq h :)⟩)
  | complete k e _ hp hk h =>
    exact .inr (.inr (.inl ⟨k, e, hp, hk, (State.phase_of_block_eq h :), (State.txn_of_block_eq h :)⟩))
  | completeStop _ hp h =>
    exact .inr (.inr (.inr ⟨by simp [hp], (State.phase_of_block_eq h :), (State.txn_of_block_eq h :)⟩))

/-- A phase that a move puts in flight is one R79 selects, or a STOP with its operand (R121). -/
theorem phase_launched_of_move {s t : State} {k : Phase} (h : Move s t) (hp : s.phase = none) (ht : t.phase = some k) :
    startPhase s.txn = some k ∨ (∃ acken, contPhase s.txn s.dr acken = some k) ∨ k = .stop (stopSilent s.txn) := by
  cases h with
  | none h | raise _ h | setBr _ h | setPsc _ h | setDr _ _ _ h | setInitialized h | setCr _ _ _ _ h =>
    have hs : s.phase = some k := (State.phase_of_block_eq h).symm.trans ht
    rw [hp] at hs
    cases hs
  | launch k' acken _ _ hk h =>
    have hkk : some k' = some k := (State.phase_of_block_eq h).symm.trans ht
    cases hkk
    exact hk.imp id fun hc => .inl ⟨acken, hc⟩
  | launchStop _ _ h =>
    have hkk : some (Phase.stop (stopSilent s.txn)) = some k := (State.phase_of_block_eq h).symm.trans ht
    cases hkk
    exact .inr (.inr rfl)
  | complete _ _ _ hp' _ _ | completeStop _ hp' _ =>
    rw [hp] at hp'
    cases hp'

/-- The operand of a launched STOP says whether the bus was owned (R121). -/
theorem stop_launched_silent {s t : State} {silent : Bool} (h : Move s t) (hp : s.phase = none)
    (ht : t.phase = some (.stop silent)) : silent = !ownsBus s.txn := by
  obtain hk | ⟨_, hk⟩ | hk := phase_launched_of_move h hp ht
  · obtain hk | hk := startPhase_cases hk <;> cases hk
  · obtain ⟨hk, -⟩ | ⟨hk, -⟩ | ⟨hk, -⟩ := contPhase_cases hk <;> cases hk
  · cases hk
    rfl

/-- While the controller does not own the bus, no phase but a START fits (R79). -/
theorem eq_start_of_phaseFits {txn : Txn} {k : Phase} (hb : ownsBus txn = false) (hk : phaseFits txn (some k) = true) :
    k = .start := by
  obtain rfl | rfl := idle_or_lost_of_not_ownsBus hb <;> cases k <;>
    simp [phaseFits, startPhase, mayTransmit, mayReceive] at hk ⊢

/-- Ownership ends only where a phase completes, in Idle or Lost (R42). -/
theorem ownsBus_lost_of_move {s t : State} (h : Move s t) (hs : ownsBus s.txn = true) (ht : ownsBus t.txn = false) :
    s.phase ≠ none ∧ t.phase = none ∧ (t.txn = .idle ∨ t.txn = .lost) := by
  have hil := idle_or_lost_of_not_ownsBus ht
  obtain hx | ⟨hx, -⟩ | ⟨_, _, hp, -, hn, -⟩ | ⟨hp, hn, -⟩ := txn_cases_of_move h
  · rw [hx, hs] at ht
    cases ht
  · rw [hx] at ht
    cases ht
  · exact ⟨by simp [hp], hn, hil⟩
  · exact ⟨hp, hn, hil⟩

/-- Ownership begins only where a START completes, or in Stopped at the launch of a silent STOP (log 24). -/
theorem ownsBus_gained_of_move {s t : State} (hi : s.Inv) (h : Move s t) (hs : ownsBus s.txn = false)
    (ht : ownsBus t.txn = true) :
    (s.phase = some .start ∧ t.txn = .started) ∨ (t.txn = .stopped ∧ t.phase = some (.stop true)) := by
  obtain hx | ⟨hx, hp⟩ | ⟨k, e, hp, hk, -, hx⟩ | ⟨-, -, hx⟩ := txn_cases_of_move h
  · rw [hx, hs] at ht
    cases ht
  · exact .inr ⟨hx, by rw [hp, stopSilent, hs]; rfl⟩
  · obtain ⟨-, -, -, hfits, -⟩ := (inv_iff_of_inFlight hp).mp hi
    obtain rfl := eq_start_of_phaseFits hs hfits
    cases hk
    exact .inl ⟨hp, hx⟩
  · rw [hx] at ht
    cases ht

/-- Settles O59: ownership follows txn, and txn changes by a launched STOP and by completions only. -/
theorem busOwnershipFollowsTxn : Obligations.BusOwnershipFollowsTxn := by
  refine ⟨ownsBus_iff, ?_, ?_, ?_⟩
  · rintro v s silent - hp ⟨t, hexec, ht⟩
    exact stop_launched_silent (exec_move rfl hexec) hp ht
  · intro s t h hs ht
    exact ownsBus_lost_of_move (step_move h).2 hs ht
  · intro s t hi h hs ht
    exact ownsBus_gained_of_move hi (step_move h).2 hs ht

end Sys2Proof.Machine
end

section
/-! The trace is write-only (R35): what each operation does does not depend on the events so far. -/

namespace Sys2Proof.Machine

/-- `s` with another past on the bus. -/
def State.withTrace (es : List Event) (s : State) : State := { s with trace := es }

/-- A next state with another trace; any other outcome as it is. -/
def setTrace (es : List Event) : Outcome → Outcome
  | .next t => .next (t.withTrace es)
  | .fault r => .fault r
  | .refused r => .refused r

/-- In `s` the operation `f` appends the same events to every trace, and nothing else depends on the trace. -/
def TraceBlind (f : State → Outcome) (s : State) : Prop :=
  ∃ new, ∀ past, f (s.withTrace past) = setTrace (past ++ new) (f s)

/-- An operation that appends no event. -/
theorem traceBlind_of_silent {f : State → Outcome} {s : State} (h : ∀ past, f (s.withTrace past) = setTrace past (f s)) :
    TraceBlind f s :=
  ⟨[], fun past => by rw [h, List.append_nil]⟩

/-- Whether a state is faulted does not depend on its trace. -/
theorem unlessFaulted_withTrace {past es : List Event} {s : State} {o o' : Outcome} (h : o' = setTrace es o) :
    unlessFaulted (s.withTrace past) o' = setTrace es (unlessFaulted s o) := by
  subst h
  cases hf : s.fault with
  | some r => rw [unlessFaulted_of_some hf, unlessFaulted_of_some (s := s.withTrace past) hf]; rfl
  | none => rw [unlessFaulted_of_none hf, unlessFaulted_of_none (s := s.withTrace past) hf]

section
variable (past : List Event) (s : State)

theorem readReg_withTrace (r : Reg) : (s.withTrace past).readReg r = (s.readReg r).withTrace past := by
  cases r with
  | br | sr | cr => rfl
  | dr => cases hp : s.phase <;> simp [State.readReg, State.withTrace, hp] <;> rfl

theorem regRead_withTrace (off : BitVec 3) : regRead off (s.withTrace past) = setTrace past (regRead off s) := by
  refine unlessFaulted_withTrace ?_
  cases regAt off with
  | none => rfl
  | some r => exact congrArg Host.Outcome.next (readReg_withTrace past s r)

theorem writeDr_withTrace (d : Byte) : writeDr d (s.withTrace past) = setTrace past (writeDr d s) := by
  unfold writeDr
  rw [apply_ite (setTrace past), apply_ite (setTrace past)]
  rfl

theorem writeCommand_withTrace (cmd : Command) (v : Byte) :
    writeCommand cmd v (s.withTrace past) = setTrace past (writeCommand cmd v s) := by
  unfold writeCommand
  rw [apply_ite (setTrace past)]
  congr 1
  cases cmd with
  | stopStart | startNoclr | stopNoclr | enable | stop => rfl
  | disable => dsimp only; rw [apply_ite (setTrace past)]; rfl
  | start => cases hk : startPhase s.txn <;> simp [State.withTrace, hk] <;> rfl
  | contNak | contAck => cases hk : contPhase s.txn s.dr (ackOf v) <;> simp [State.withTrace, hk] <;> rfl

theorem regWrite_withTrace (off : BitVec 3) (v : Byte) :
    regWrite off v (s.withTrace past) = setTrace past (regWrite off v s) := by
  refine unlessFaulted_withTrace ?_
  cases regAt off with
  | none => rfl
  | some r =>
    cases r with
    | br | sr => rfl
    | dr => exact writeDr_withTrace past s v
    | cr => exact writeCommand_withTrace past s _ v

theorem regAccess_withTrace (we : Bool) (off : BitVec 3) (data : Byte) :
    regAccess we off data (s.withTrace past) = setTrace past (regAccess we off data s) := by
  cases we
  · exact regRead_withTrace past s off
  · exact regWrite_withTrace past s off data

theorem command_withTrace (cmd : Command) (v : Byte) :
    unlessFaulted (s.withTrace past) (writeCommand cmd v (s.withTrace past)) =
      setTrace past (unlessFaulted s (writeCommand cmd v s)) :=
  unlessFaulted_withTrace (writeCommand_withTrace past s cmd v)

theorem callPrimitive_withTrace (violation : Option Contract) (expansion : List HostOp) :
    callPrimitive violation expansion (s.withTrace past) = setTrace past (callPrimitive violation expansion s) := by
  refine unlessFaulted_withTrace ?_
  cases violation <;> rfl

theorem beginSequence_withTrace (ops : List HostOp) :
    beginSequence ops (s.withTrace past) = setTrace past (beginSequence ops s) :=
  unlessFaulted_withTrace rfl

theorem execInitialize_withTrace (f : Nat) :
    execInitialize f (s.withTrace past) = setTrace past (execInitialize f s) := by
  refine unlessFaulted_withTrace ?_
  rw [apply_ite (setTrace past), apply_ite (setTrace past)]
  rfl

theorem execWritePage_withTrace (a : Byte) (data : List Byte) :
    execWritePage a data (s.withTrace past) = setTrace past (execWritePage a data s) := by
  unfold execWritePage
  split
  · exact unlessFaulted_withTrace rfl
  · exact beginSequence_withTrace past s _

theorem execSequentialRead_withTrace (a : Byte) (count : Nat) :
    execSequentialRead a count (s.withTrace past) = setTrace past (execSequentialRead a count s) := by
  unfold execSequentialRead
  split
  · exact unlessFaulted_withTrace rfl
  · exact beginSequence_withTrace past s _

/-- A given turn does not depend on the trace. -/
theorem turn_withTrace {s : State} (ht : s.turns ≠ []) (k : Phase) : (s.withTrace past).turn k = s.turn k := by
  obtain ⟨w, rest, hw⟩ := List.exists_cons_of_ne_nil ht
  rw [turn_of_cons k hw]
  exact turn_of_cons k hw

end

/-- In `s` the completion `g` appends the same events to every trace. -/
def Appends (g : State → State) (s : State) : Prop :=
  ∃ new, ∀ past, g (s.withTrace past) = (g s).withTrace (past ++ new)

theorem appends_complete (code : StatusCode) (txn : Txn) (e : Event) (s : State) : Appends (·.complete code txn e) s :=
  ⟨[e], fun _ => rfl⟩

theorem appends_completeLost (e : Event) (s : State) : Appends (·.completeLost e) s := ⟨[e], fun _ => rfl⟩

theorem appends_completeReceived (b : Byte) (code : StatusCode) (txn : Txn) (e : Event) (s : State) :
    Appends (·.completeReceived b code txn e) s := ⟨[e], fun _ => rfl⟩

/-- A silent STOP appends nothing (R134). -/
theorem appends_completeStop (silent : Bool) (s : State) : Appends (·.completeStop silent) s := by
  cases silent
  · exact ⟨[.stop], fun _ => rfl⟩
  · exact ⟨[], fun past => by rw [List.append_nil]; rfl⟩

/-- SEQ's step appends what its completion appends, and nothing where the phase stays in flight. -/
theorem seqComplete_traceBlind {k : Phase} {effect : Turn → State → State} {s : State} (ht : s.turns ≠ [])
    (he : ∀ tn, Appends (effect tn) s.nextTurn) : TraceBlind (seqComplete k effect) s := by
  cases hg : (s.turn k).permits with
  | false =>
    refine traceBlind_of_silent fun past => unlessFaulted_withTrace ?_
    rw [turn_withTrace past ht, hg, apply_ite (setTrace past)]
    exact if_congr Iff.rfl rfl rfl
  | true =>
    obtain ⟨new, hnew⟩ := he (s.turn k)
    refine ⟨new, fun past => unlessFaulted_withTrace ?_⟩
    rw [turn_withTrace past ht, hg, apply_ite (setTrace (past ++ new))]
    exact if_congr Iff.rfl (congrArg Host.Outcome.next (hnew past)) rfl

/-- Every operation, with ENV's answer given, is blind to the trace. -/
theorem exec_traceBlind (i : Instr) {s : State} (ht : s.turns ≠ []) : TraceBlind (exec i) s := by
  cases i with
  | rdBr => exact traceBlind_of_silent fun past => regRead_withTrace past s 0
  | rdSr => exact traceBlind_of_silent fun past => regRead_withTrace past s 1
  | rdDr => exact traceBlind_of_silent fun past => regRead_withTrace past s 3
  | rdCr => exact traceBlind_of_silent fun past => regRead_withTrace past s 4
  | wrBr d => exact traceBlind_of_silent fun past => regWrite_withTrace past s 0 d
  | wrSr v => exact traceBlind_of_silent fun past => regWrite_withTrace past s 1 v
  | wrDr d => exact traceBlind_of_silent fun past => regWrite_withTrace past s 3 d
  | wrCr v => exact traceBlind_of_silent fun past => regWrite_withTrace past s 4 v
  | reservedOff2 we d | reservedOff5 we d | reservedOff6 we d | reservedOff7 we d =>
    exact traceBlind_of_silent fun past => regAccess_withTrace past s we _ d
  | cmdDisable v | cmdEnable v | cmdStart v | cmdStop v | cmdContNak v | cmdContAck v | cmdStartNoclr v
  | cmdStopNoclr v | cmdStopStart v => exact traceBlind_of_silent fun past => command_withTrace past s _ v
  | phStart | phRstart => exact seqComplete_traceBlind ht fun _ => appends_complete _ _ _ _
  | phSlaW frame =>
    change TraceBlind (execPhSlaW frame) s
    refine seqComplete_traceBlind ht fun tn => ?_
    cases tn.addrReply with
    | ack | nak => exact appends_complete _ _ _ _
    | lost => exact appends_completeLost _ _
  | phSlaR frame =>
    change TraceBlind (execPhSlaR frame) s
    refine seqComplete_traceBlind ht fun tn => ?_
    cases tn.addrReply with
    | ack | nak => exact appends_complete _ _ _ _
    | lost => exact appends_completeLost _ _
  | phDataTx byte =>
    change TraceBlind (execPhDataTx byte) s
    refine seqComplete_traceBlind ht fun tn => ?_
    cases tn.dataReply with
    | ack | nak => exact appends_complete _ _ _ _
    | lost => exact appends_completeLost _ _
  | phDataRxAck =>
    change TraceBlind execPhDataRxAck s
    exact seqComplete_traceBlind ht fun tn => appends_completeReceived tn.readByte _ _ _ _
  | phDataRxNak =>
    change TraceBlind execPhDataRxNak s
    refine seqComplete_traceBlind ht fun tn => ?_
    cases tn.readLost <;> exact appends_completeReceived _ _ _ _ _
  | phStop silent => exact seqComplete_traceBlind ht fun _ => appends_completeStop silent _
  | initializeBus f => exact traceBlind_of_silent fun past => execInitialize_withTrace past s f
  | status => exact traceBlind_of_silent fun past => callPrimitive_withTrace past s none [.run .rdSr, .maskStatus]
  | start | stop | transmitAddress _ _ | transmitByte _ | receiveByte _ =>
    exact traceBlind_of_silent fun past => callPrimitive_withTrace past s _ _
  | describe _ | waitUntilWriteComplete => exact traceBlind_of_silent fun past => unlessFaulted_withTrace rfl
  | readByte _ | writeByte _ _ => exact traceBlind_of_silent fun past => beginSequence_withTrace past s _
  | writePage a data => exact traceBlind_of_silent fun past => execWritePage_withTrace past s a data
  | sequentialRead a count => exact traceBlind_of_silent fun past => execSequentialRead_withTrace past s a count

/-- Settles O60: the events appended to `s`'s own trace are those appended to any other. -/
theorem traceIsWriteOnly : Obligations.TraceIsWriteOnly := by
  intro i s past hturns
  obtain ⟨new, hnew⟩ := exec_traceBlind i hturns
  cases ho : exec i s with
  | next t =>
    rw [ho] at hnew
    have ht : Host.Outcome.next t = setTrace (s.trace ++ new) (.next t) := ho.symm.trans (hnew s.trace)
    have htrace : t.trace = s.trace ++ new := congrArg State.trace (Host.Outcome.next.inj ht)
    exact ⟨new, htrace, hnew past⟩
  | fault r =>
    rw [ho] at hnew
    exact hnew past
  | refused r =>
    rw [ho] at hnew
    exact hnew past

end Sys2Proof.Machine
end

section
/-! The agents' moves (R59, R122): what HOST's move and a step come to, by whose turn it is and what HOST has to do. -/

namespace Sys2Proof.Machine

/-- HOST runs the instruction its word decodes to (R70). -/
theorem hostMove_of_word {s : State} {bs : List Byte} {i : Instr} {more : List HostOp}
    (ht : s.todo = .word bs :: more) (hd : decode bs = .ok i) : hostMove s = exec i { s with todo := more } := by
  simp only [hostMove, ht, fetchWord, hd]

/-- HOST runs the operation its list names (R88). -/
theorem hostMove_of_run {s : State} {i : Instr} {more : List HostOp} (ht : s.todo = .run i :: more)
    (hw : i.wf = true) : hostMove s = exec i { s with todo := more } := by
  simp only [hostMove, ht, fetchInstr, hw, if_true]

/-- In a turn that is HOST's, HOST moves and the turn is used up. -/
theorem step_of_hostTurn {s : State} {k : Phase} (hf : s.fault = none) (hp : s.phase = some k)
    (hq : (s.turn k).seqFirst = false) : step s = hostMove s.nextTurn :=
  (step_inFlight hf hp).trans (if_neg (by simp [hq]))

/-- In a turn that is SEQ's, the completion of the phase in flight runs (R122). -/
theorem step_of_seqTurn {s : State} {k : Phase} (hf : s.fault = none) (hp : s.phase = some k)
    (hq : (s.turn k).seqFirst = true) : step s = exec (phaseInstr k) s :=
  (step_inFlight hf hp).trans (if_pos hq)

theorem decodeTableWord_eq_some {nbits w : Nat} {i : Instr} (h : decodeTableWord nbits w = some i) :
    decode (bytesOfWord nbits w) = .ok i := by
  unfold decodeTableWord at h
  split at h
  case h_1 hd => cases h; exact hd
  case h_2 => cases h

/-- A word loaded with no phase in flight needs no turn. -/
theorem step_withFetchWord_of_rest {s : State} {nbits w : Nat} {i : Instr} (hf : s.fault = none)
    (hp : s.phase = none) (hd : decode (bytesOfWord nbits w) = .ok i) : step (s.withFetchWord nbits w) = exec i s := by
  have hturns : turnsForHost s = s.turns := by simp only [turnsForHost, hp]
  calc step (s.withFetchWord nbits w)
    _ = hostMove (s.withFetchWord nbits w) := step_idle hf hp
    _ = exec i { s with turns := turnsForHost s } := hostMove_of_word rfl hd
    _ = exec i s := by rw [hturns]

/-- A word loaded while a phase is in flight uses up the turn of HOST's loaded with it. -/
theorem step_withFetchWord_of_inFlight {s : State} {k : Phase} {nbits w : Nat} {i : Instr} (hf : s.fault = none)
    (hp : s.phase = some k) (hd : decode (bytesOfWord nbits w) = .ok i) :
    step (s.withFetchWord nbits w) = exec i { s with draws := s.draws + 1 } := by
  have hturns : turnsForHost s = hostTurn :: s.turns := by simp only [turnsForHost, hp]
  have hturn : (s.withFetchWord nbits w).turn k = hostTurn := turn_of_cons k hturns
  calc step (s.withFetchWord nbits w)
    _ = hostMove (s.withFetchWord nbits w).nextTurn := step_of_hostTurn hf hp (by rw [hturn]; rfl)
    _ = exec i { s with turns := (turnsForHost s).tail, draws := s.draws + 1 } := hostMove_of_word rfl hd
    _ = exec i { s with draws := s.draws + 1 } := by rw [hturns]; rfl

/-- Settles O50, by whose turn it is: HOST's word and HOST's call, SEQ's completion, and a loaded word. -/
theorem stepRunsDecodedInstruction : Obligations.StepRunsDecodedInstruction := by
  refine ⟨?word, ?call, ?completion, ?loaded⟩
  case word =>
    intro s bs i more hf ht hd _
    exact ⟨fun hp => (step_idle hf hp).trans (hostMove_of_word ht hd),
      fun k hp hq => (step_of_hostTurn hf hp hq).trans (hostMove_of_word (s := s.nextTurn) ht hd)⟩
  case call =>
    intro s i more hf ht hw
    exact ⟨fun hp => (step_idle hf hp).trans (hostMove_of_run ht hw),
      fun k hp hq => (step_of_hostTurn hf hp hq).trans (hostMove_of_run (s := s.nextTurn) ht hw)⟩
  case completion => exact fun s k hf hp hq => step_of_seqTurn hf hp hq
  case loaded =>
    intro s nbits w i hf hi
    have hd := decodeTableWord_eq_some hi
    refine ⟨fun hp => step_withFetchWord_of_rest hf hp hd, fun hp => ?_⟩
    obtain ⟨k, hk⟩ := Option.ne_none_iff_exists'.mp hp
    exact step_withFetchWord_of_inFlight hf hk hd

end Sys2Proof.Machine
end

section
/-! How the trace grows (R63, R124). -/

namespace Sys2Proof.Machine

theorem State.trace_of_block_eq {t u : State} (h : t.block = u.block) : t.trace = u.trace := by
  have hb : t.block.trace = u.block.trace := congrArg State.trace h
  exact hb

/-- What a move does to the trace: only a completion appends, and a silent STOP's does not (R134). -/
theorem trace_cases_of_move {s t : State} (h : Move s t) :
    t.trace = s.trace ∨ (s.phase ≠ none ∧ t.phase = none ∧ ∃ e, t.trace = s.trace ++ [e]) := by
  cases h with
  | none h | raise _ h | setBr _ h | setPsc _ h | setDr _ _ _ h | setInitialized h | setCr _ _ _ _ h
  | launch _ _ _ _ _ h | launchStop _ _ h => exact .inl (State.trace_of_block_eq h :)
  | complete k e _ hp _ h =>
    exact .inr ⟨by simp [hp], (State.phase_of_block_eq h :), e, (State.trace_of_block_eq h :)⟩
  | completeStop silent hp h =>
    cases silent with
    | true => exact .inl (State.trace_of_block_eq h :)
    | false => exact .inr ⟨by simp [hp], (State.phase_of_block_eq h :), .stop, (State.trace_of_block_eq h :)⟩

/-- Settles O55: a step is a move, and a move's completion appends one event. -/
theorem traceGrowsByCompletionsOnly : Obligations.TraceGrowsByCompletionsOnly := by
  intro s t h
  obtain ⟨-, hm⟩ := step_move h
  exact trace_cases_of_move hm

end Sys2Proof.Machine
end

section
/-! Encoding and decoding agree in both directions (R71 to R78). -/

namespace Sys2Proof

/-- A command's word is the value written to CR (R77). -/
theorem encode_commandInstr (v : Byte) (cmd : Command) : encode (commandInstr v cmd) = some [v] := by
  cases cmd <;> rfl

/-- The command can be read off its instruction. -/
theorem commandInstr_injective (v : Byte) : Function.Injective (commandInstr v) := by
  intro a b h
  cases a <;> cases b <;> cases h <;> rfl

/-- Settles O1: each word is written out, so the decoder computes its row. -/
theorem writtenWordsDecode : Obligations.WrittenWordsDecode :=
  ⟨rfl, rfl, rfl, rfl, rfl, rfl, rfl, rfl, rfl, rfl, rfl⟩

/-- Settles O2, by the format of the operation: accesses by the fields of their word, commands by their
value's bits; phases and pseudo-instructions have no word. -/
theorem decodeOfEncode : Obligations.DecodeOfEncode := by
  intro i
  cases i with
  | rdBr => exact Laws.RoundTrip.rdBr
  | wrBr d => exact Laws.RoundTrip.wrBr d
  | rdSr => exact Laws.RoundTrip.rdSr
  | wrSr v => exact Laws.RoundTrip.wrSr v
  | rdDr => exact Laws.RoundTrip.rdDr
  | wrDr d => exact Laws.RoundTrip.wrDr d
  | rdCr => exact Laws.RoundTrip.rdCr
  | wrCr v => exact Laws.RoundTrip.wrCr v
  | reservedOff2 we data => exact Laws.RoundTrip.reservedOff2 we data
  | reservedOff5 we data => exact Laws.RoundTrip.reservedOff5 we data
  | reservedOff6 we data => exact Laws.RoundTrip.reservedOff6 we data
  | reservedOff7 we data => exact Laws.RoundTrip.reservedOff7 we data
  | cmdDisable v => exact Laws.RoundTrip.cmdDisable v
  | cmdEnable v => exact Laws.RoundTrip.cmdEnable v
  | cmdStart v => exact Laws.RoundTrip.cmdStart v
  | cmdStop v => exact Laws.RoundTrip.cmdStop v
  | cmdContNak v => exact Laws.RoundTrip.cmdContNak v
  | cmdContAck v => exact Laws.RoundTrip.cmdContAck v
  | cmdStartNoclr v => exact Laws.RoundTrip.cmdStartNoclr v
  | cmdStopNoclr v => exact Laws.RoundTrip.cmdStopNoclr v
  | cmdStopStart v => exact Laws.RoundTrip.cmdStopStart v
  | phStart | phRstart | phSlaW | phSlaR | phDataTx | phDataRxAck | phDataRxNak | phStop
  | initializeBus | start | stop | status | transmitAddress | transmitByte | receiveByte | describe
  | readByte | writeByte | waitUntilWriteComplete | writePage | sequentialRead =>
    exact Laws.RoundTrip.noWord rfl

/-- Settles O4. The decoder's command matches its row of R77; and a value that matches a row encodes
that row's instruction, which decoding gives back. -/
theorem commandDecodeAgreesWithTable : Obligations.CommandDecodeAgreesWithTable := by
  intro v cmd
  constructor
  · rintro rfl
    exact decodeCrw_wf v
  · intro hw
    have hd : decode [v] = .ok (commandInstr v cmd) := decodeOfEncode _ hw _ (encode_commandInstr v cmd)
    have hi : commandInstr v (decodeCommand v) = commandInstr v cmd := Except.ok.inj hd
    exact commandInstr_injective v hi

/-- The four register reads, whose data field the decoder ignores (R71). -/
def Instr.IsRegRead (i : Instr) : Prop := i = .rdBr ∨ i = .rdSr ∨ i = .rdDr ∨ i = .rdCr

theorem encode_accessInstr_write (off : BitVec 3) (data : Byte) :
    encode (accessInstr true off data) = some (accessBytes (accessWord true off data)) := by
  obtain ⟨⟨k, hk⟩⟩ := off
  interval_cases k <;> rfl

/-- A read keeps its data field at the reserved offsets; at a register's the field becomes 0x00 (R71). -/
theorem encode_accessInstr_read (off : BitVec 3) (data : Byte) :
    encode (accessInstr false off data) = some (accessBytes (accessWord false off data)) ∨
      ((accessInstr false off data).IsRegRead ∧
        encode (accessInstr false off data) = some (accessBytes (accessWord false off 0x00))) := by
  obtain ⟨⟨k, hk⟩⟩ := off
  match k, hk with
  | 0, _ => exact .inr ⟨.inl rfl, rfl⟩
  | 1, _ => exact .inr ⟨.inr (.inl rfl), rfl⟩
  | 3, _ => exact .inr ⟨.inr (.inr (.inl rfl)), rfl⟩
  | 4, _ => exact .inr ⟨.inr (.inr (.inr rfl)), rfl⟩
  | 2, _ | 5, _ | 6, _ | 7, _ => exact .inl rfl

/-- An access encodes to the word with its direction and offset; only a register read's data may differ. -/
theorem encode_accessInstr (we : Bool) (off : BitVec 3) (data : Byte) :
    ∃ d, encode (accessInstr we off data) = some (accessBytes (accessWord we off d)) ∧
      (d = data ∨ (accessInstr we off data).IsRegRead) := by
  cases we with
  | true => exact ⟨data, encode_accessInstr_write off data, .inl rfl⟩
  | false =>
    obtain he | ⟨hr, he⟩ := encode_accessInstr_read off data
    · exact ⟨data, he, .inl rfl⟩
    · exact ⟨0x00, he, .inr hr⟩

theorem accessBytes_append (n : BitVec 4) (d : Byte) : accessBytes (n ++ d) = [d, n.setWidth 8] := by
  have hlo : (n ++ d).extractLsb' 0 8 = d := accessData_append n d
  have hhi : (n ++ d).extractLsb' 8 4 = n := by
    refine BitVec.eq_of_getLsbD_eq fun i hi => ?_
    rw [BitVec.getLsbD_extractLsb', BitVec.getLsbD_append]
    simp [hi]
  rw [accessBytes, hlo, hhi]

/-- The upper four bits of an access word are its direction and offset (R71). -/
theorem ofBool_append_extractLsb'_nibble (n : BitVec 4) :
    BitVec.ofBool (n.getLsbD 3) ++ n.extractLsb' 0 3 = n := by
  revert n
  decide

theorem setWidth_nibble {hi : Byte} (h : hi &&& 0xF0 = 0) : (hi.extractLsb' 0 4).setWidth 8 = hi := by
  revert hi
  decide

/-- The direction and offset of a word's upper byte, with any data byte, give that upper byte back (log 6). -/
theorem accessBytes_of_upper {hi : Byte} (h : hi &&& 0xF0 = 0) (d : Byte) :
    accessBytes (accessWord ((hi.extractLsb' 0 4).getLsbD 3) ((hi.extractLsb' 0 4).extractLsb' 0 3) d) = [d, hi] := by
  rw [accessWord, ofBool_append_extractLsb'_nibble, accessBytes_append, setWidth_nibble h]

/-- Settles O3, by the length of the bytes: a command's word is its value; an access word's upper byte
comes back from its direction and offset, and its data byte unless a register read drops it. -/
theorem encodeOfDecode : Obligations.EncodeOfDecode := by
  intro bs i h
  match bs with
  | [] => cases h
  | [v] =>
    cases h
    exact ⟨[v], encode_commandInstr v _, rfl, rfl, .inl rfl⟩
  | [lo, hi] =>
    cases hz : hi &&& 0xF0 == 0 with
    | false =>
      simp only [decode, hz] at h
      cases h
    | true =>
      rw [decode_pair lo hi hz] at h
      cases h
      obtain ⟨d, he, hd⟩ := encode_accessInstr _ _ lo
      rw [accessBytes_of_upper (eq_of_beq hz)] at he
      exact ⟨[d, hi], he, rfl, rfl, hd.imp (fun hlo => by rw [hlo]) id⟩
  | _ :: _ :: _ :: _ => cases h

end Sys2Proof
end

section
/-! The address frame's fields (R83), and the commands as writes to CR (R70, R107). -/

namespace Sys2Proof.Machine

/-- The mask clears the stray bit of raw, so bit 0 is the direction's (R83). -/
theorem addressFrame_bit0 (raw : Byte) (dir : Dir) : (addressFrame raw dir).bit 0 = true ↔ dir = .r := by
  cases dir <;> simp [addressFrame, dirBit]

/-- The direction has no bit above bit 0, so the address is raw's (R83). -/
theorem frameAddress_addressFrame (raw : Byte) (dir : Dir) :
    frameAddress (addressFrame raw dir) = raw.extractLsb' 1 7 := by
  refine BitVec.eq_of_getLsbD_eq fun i hi => ?_
  cases dir <;> interval_cases i <;> simp [frameAddress, addressFrame, dirBit]

/-- Settles O5, field by field; the EEPROM's values are computed. -/
theorem addressFrameCarriesDirection : Obligations.AddressFrameCarriesDirection := by
  refine ⟨fun raw dir => ⟨?formula, addressFrame_bit0 raw dir, frameAddress_addressFrame raw dir⟩, rfl, rfl, rfl, rfl⟩
  case formula => cases dir <;> rfl

/-- A command's meaning is a write of that command to CR (R107). -/
theorem exec_commandInstr (cmd : Command) (v : Byte) (s : State) :
    exec (commandInstr v cmd) s = unlessFaulted s (writeCommand cmd v s) := by
  cases cmd <;> rfl

/-- A write to CR is a write of the command its value decodes to (R78, R107). -/
theorem exec_wrCr (v : Byte) (s : State) :
    exec (.wrCr v) s = unlessFaulted s (writeCommand (decodeCommand v) v s) := rfl

/-- Settles O14: both sides are the write of the decoded command to CR. -/
theorem wrCrActsAsItsCommand : Obligations.WrCrActsAsItsCommand := by
  intro v s
  rw [decodeCrw, exec_commandInstr, exec_wrCr]

end Sys2Proof.Machine
end

section
/-! Register accesses in an unfaulted state: reads, writes and reserved offsets (R100 to R108). -/

namespace Sys2Proof.Machine

theorem regRead_of_regAt {off : BitVec 3} {r : Reg} {s : State} (hf : s.fault = none) (hr : regAt off = some r) :
    regRead off s = .next (s.readReg r) := by
  rw [regRead, unlessFaulted_of_none hf, hr]

theorem regWrite_of_regAt {off : BitVec 3} {r : Reg} {v : Byte} {s : State} (hf : s.fault = none)
    (hr : regAt off = some r) : regWrite off v s = writeReg r v s := by
  rw [regWrite, unlessFaulted_of_none hf, hr]

/-- An offset without a register faults in both directions (R108). -/
theorem regAccess_of_reserved (we : Bool) {off : BitVec 3} (data : Byte) {s : State} (hf : s.fault = none)
    (hr : regAt off = none) : regAccess we off data s = .next { s with fault := some (.reservedOffset off) } := by
  cases we <;> exact (unlessFaulted_of_none hf _).trans (by rw [hr]; rfl)

/-! ### Reads -/

theorem exec_rdBr {s : State} (hf : s.fault = none) : exec .rdBr s = .next { s with result := .byte s.br } :=
  regRead_of_regAt (off := 0) hf rfl

theorem exec_rdSr {s : State} (hf : s.fault = none) : exec .rdSr s = .next { s with result := .byte s.sr.toByte } :=
  regRead_of_regAt (off := 1) hf rfl

theorem exec_rdCr {s : State} (hf : s.fault = none) : exec .rdCr s = .next { s with result := .byte s.cr.toByte } :=
  regRead_of_regAt (off := 4) hf rfl

theorem readReg_dr_of_rest {s : State} (hp : s.phase = none) : s.readReg .dr = s.returns (.byte s.dr) := by
  simp only [State.readReg, hp]

/-- With no phase in flight RD_DR returns DR (R104). -/
theorem exec_rdDr_of_rest {s : State} (hf : s.fault = none) (hp : s.phase = none) :
    exec .rdDr s = .next { s with result := .byte s.dr } :=
  (regRead_of_regAt (off := 3) hf rfl).trans (congrArg Host.Outcome.next (readReg_dr_of_rest hp))

theorem readReg_dr_of_inFlight {s : State} {k : Phase} (hp : s.phase = some k) :
    s.readReg .dr = (s.returns (.byte s.freeByte)).drawn := by
  simp only [State.readReg, hp]

/-- While a phase is in flight RD_DR returns a free draw (R104). -/
theorem exec_rdDr_of_inFlight {s : State} {k : Phase} (hf : s.fault = none) (hp : s.phase = some k) :
    exec .rdDr s = .next { s with result := .byte (Config.freeByte s.draws), draws := s.draws + 1 } :=
  (regRead_of_regAt (off := 3) hf rfl).trans (congrArg Host.Outcome.next (readReg_dr_of_inFlight hp))

/-- The other bits of the byte a read of CR gives (R106). -/
theorem toByte_bits (c : Cr) :
    c.toByte.bit 6 = c.acken ∧ c.toByte.bit 5 = c.sta ∧ c.toByte.bit 3 = false ∧ c.toByte.bit 2 = c.en ∧
      c.toByte.bit 1 = false ∧ c.toByte.bit 0 = false := by
  obtain ⟨int, acken, sta, sto, en⟩ := c
  revert int acken sta sto en
  decide

/-! ### Writes -/

theorem exec_wrBr {s : State} (d : Byte) (hf : s.fault = none) : exec (.wrBr d) s = .next { s with br := d } :=
  regWrite_of_regAt (off := 0) hf rfl

theorem exec_wrSr {s : State} (v : Byte) (hf : s.fault = none) :
    exec (.wrSr v) s = .next { s with sr := { s.sr with psc := v.extractLsb' 0 2 } } :=
  regWrite_of_regAt (off := 1) hf rfl

theorem exec_wrDr {s : State} (d : Byte) (hf : s.fault = none) : exec (.wrDr d) s = writeDr d s :=
  regWrite_of_regAt (off := 3) hf rfl

theorem writeDr_of_inFlight {s : State} (d : Byte) (hp : s.phase ≠ none) :
    writeDr d s = .next { s with fault := some .writeDuringPhase } :=
  if_pos (Option.isSome_iff_ne_none.mpr hp)

theorem writeDr_of_flagClear {s : State} (d : Byte) (hp : s.phase = none) (hi : s.cr.int = false) :
    writeDr d s = .next { s with fault := some .dataWriteWhileFlagClear } := by
  simp [writeDr, hp, hi, State.raise]

theorem writeDr_of_flagSet {s : State} (d : Byte) (hp : s.phase = none) (hi : s.cr.int = true) :
    writeDr d s = .next { s with dr := d } := by
  simp [writeDr, hp, hi]

/-- With no phase in flight and INT = 1, WR_DR stores the byte (R105). -/
theorem exec_wrDr_of_flagSet {s : State} (d : Byte) (hf : s.fault = none) (hp : s.phase = none)
    (hi : s.cr.int = true) : exec (.wrDr d) s = .next { s with dr := d } :=
  (exec_wrDr d hf).trans (writeDr_of_flagSet d hp hi)

/-- Settles O6: a read of BR's register, which after WR_BR holds the value written. -/
theorem rdBrReturnsDivider : Obligations.RdBrReturnsDivider := by
  refine ⟨fun x => decode_pair x 0x00 rfl, fun s hf => exec_rdBr hf, fun s t d h => ?afterWrite⟩
  case afterWrite =>
    obtain ⟨hf, -⟩ := unlessFaulted_next h
    rw [exec_wrBr d hf] at h
    cases h
    exact exec_rdBr hf

/-- Settles O7: a write of BR's register; the clock formula is computed at BR = 0 (R233). -/
theorem wrBrStoresDivider : Obligations.WrBrStoresDivider :=
  ⟨fun d => decode_pair d 0x08 rfl, fun _ d hf => exec_wrBr d hf, fun psc => by simp [busClock]⟩

/-- Settles O9: a write of SR's register; the two values of the example have the same bits 1:0. -/
theorem wrSrSetsPrescalerOnly : Obligations.WrSrSetsPrescalerOnly := by
  refine ⟨fun v => decode_pair v 0x09 rfl, fun s v hf => exec_wrSr v hf, ?values⟩
  case values =>
    rintro s v hf (rfl | rfl)
    · exact ⟨exec_wrSr 0xFD hf, rfl⟩
    · exact ⟨exec_wrSr 0x01 hf, rfl⟩

/-- Settles O11: the checks of R105 in order; the second write finds the state of the first but for DR. -/
theorem wrDrStoresOrFaults : Obligations.WrDrStoresOrFaults := by
  refine ⟨fun d => decode_pair d 0x0B rfl, fun s d hf => ?_, fun s t d e hp hi h => ?lastWins⟩
  · rw [exec_wrDr d hf]
    exact ⟨writeDr_of_inFlight d, writeDr_of_flagClear d, writeDr_of_flagSet d⟩
  case lastWins =>
    obtain ⟨hf, -⟩ := unlessFaulted_next h
    rw [exec_wrDr_of_flagSet d hf hp hi] at h
    cases h
    have hfirst : exec (.wrDr e) s = .next { s with dr := e } := exec_wrDr_of_flagSet e hf hp hi
    exact (exec_wrDr_of_flagSet (s := { s with dr := d }) e hf hp hi).trans hfirst.symm

/-- Settles O12, bit by bit. -/
theorem rdCrReturnsControlByte : Obligations.RdCrReturnsControlByte := by
  intro s hf
  obtain ⟨hacken, hsta, h3, hen, h1, h0⟩ := toByte_bits s.cr
  exact ⟨_, exec_rdCr hf, toByte_bit7 s.cr, hacken, hsta, toByte_bit4 s.cr, h3, hen, h1, h0⟩

/-- Settles O13: none of the four offsets holds a register. -/
theorem reservedOffsetsFault : Obligations.ReservedOffsetsFault := by
  refine ⟨fun s we data hf => ?faults, fun data => ?words⟩
  case faults =>
    exact ⟨regAccess_of_reserved we data hf rfl, regAccess_of_reserved we data hf rfl,
      regAccess_of_reserved we data hf rfl, regAccess_of_reserved we data hf rfl⟩
  case words =>
    exact ⟨decode_pair data _ rfl, decode_pair data _ rfl, decode_pair data _ rfl, decode_pair data _ rfl,
      decode_pair data _ rfl, decode_pair data _ rfl, decode_pair data _ rfl, decode_pair data _ rfl⟩

end Sys2Proof.Machine
end

section
/-! CODE while a phase is in flight (R125), and DR after one (R104, R133). -/

namespace Sys2Proof.Machine

theorem State.code_of_block_eq {t u : State} (h : t.block = u.block) : t.sr.code = u.sr.code := by
  have hb : t.block.sr.code = u.block.sr.code := congrArg (fun s => s.sr.code) h
  exact hb

/-- Only a completion changes CODE, and it leaves no phase in flight (R125). -/
theorem code_of_move_inFlight {s t : State} (h : Move s t) (ht : t.phase ≠ none) : t.sr.code = s.sr.code := by
  cases h with
  | none h | raise _ h | setBr _ h | setPsc _ h | setDr _ _ _ h | setInitialized h | setCr _ _ _ _ h
  | launch _ _ _ _ _ h | launchStop _ _ h => exact (State.code_of_block_eq h :)
  | complete _ _ _ _ _ h | completeStop _ _ h => exact absurd (State.phase_of_block_eq h) ht

/-- Settles O8: SR's byte is read off its fields; a step is a move. -/
theorem rdSrReturnsCodeAndPrescaler : Obligations.RdSrReturnsCodeAndPrescaler := by
  refine ⟨fun x => decode_pair x 0x01 rfl, fun s hf => exec_rdSr hf, ?values, ?inFlight⟩
  case values =>
    intro s hf hcode hpsc
    exact ⟨s.sr.toByte, exec_rdSr hf, by rw [Sr.toByte, hcode, hpsc]; decide⟩
  case inFlight =>
    intro s t h ht
    obtain ⟨-, hm⟩ := step_move h
    exact code_of_move_inFlight hm ht

/-- A step of SEQ's that ends the phase applies the phase's effect to ENV's answers. -/
theorem seqComplete_completed {k : Phase} {effect : Turn → State → State} {s t : State}
    (h : seqComplete k effect s = .next t) (ht : t.phase = none) :
    s.fault = none ∧ t = effect (s.turn k) s.nextTurn := by
  obtain ⟨hf, hp, ⟨-, rfl⟩ | ⟨-, rfl⟩⟩ := seqComplete_next h
  · exact ⟨hf, rfl⟩
  · rw [State.nextTurn_phase, hp] at ht
    cases ht

/-- What DR holds in `t`, reached by completing the phase `k` in flight in `s`: a free value after a lost
arbitration, the byte received, else what it held (R126 to R134). -/
def drAfter (k : Phase) (s t : State) : Byte :=
  match k with
  | .sla _ | .dtx _ => if t.txn = .lost then Config.freeByte (s.draws + 1) else s.dr
  | .drx _ => (s.turn k).readByte
  | .start | .rstart | .stop _ => s.dr

/-- A completion leaves `drAfter` in DR and raises no fault, by the phase and ENV's answer. -/
theorem dr_of_phaseInstr_completed {k : Phase} {s t : State} (h : exec (phaseInstr k) s = .next t) (ht : t.phase = none) :
    t.fault = none ∧ t.dr = drAfter k s t := by
  cases k with
  | start =>
    obtain ⟨hf, rfl⟩ := seqComplete_completed (show execPhStart s = _ from h) ht
    exact ⟨hf, rfl⟩
  | rstart =>
    obtain ⟨hf, rfl⟩ := seqComplete_completed (show execPhRstart s = _ from h) ht
    exact ⟨hf, rfl⟩
  | stop silent =>
    obtain ⟨hf, rfl⟩ := seqComplete_completed (show execPhStop silent s = _ from h) ht
    exact ⟨hf, rfl⟩
  | sla frame =>
    cases hb : frame.bit 0 with
    | false =>
      rw [phaseInstr, hb] at h
      obtain ⟨hf, rfl⟩ := seqComplete_completed (show execPhSlaW frame s = _ from h) ht
      cases (s.turn (.sla frame)).addrReply <;> exact ⟨hf, rfl⟩
    | true =>
      rw [phaseInstr, hb] at h
      obtain ⟨hf, rfl⟩ := seqComplete_completed (show execPhSlaR frame s = _ from h) ht
      cases (s.turn (.sla frame)).addrReply <;> exact ⟨hf, rfl⟩
  | dtx byte =>
    obtain ⟨hf, rfl⟩ := seqComplete_completed (show execPhDataTx byte s = _ from h) ht
    cases (s.turn (.dtx byte)).dataReply <;> exact ⟨hf, rfl⟩
  | drx acken =>
    cases acken with
    | true =>
      obtain ⟨hf, rfl⟩ := seqComplete_completed (show execPhDataRxAck s = _ from h) ht
      exact ⟨hf, rfl⟩
    | false =>
      obtain ⟨hf, rfl⟩ := seqComplete_completed (show execPhDataRxNak s = _ from h) ht
      cases (s.turn (.drx false)).readLost <;> exact ⟨hf, rfl⟩

/-- The operand of an address or transmission phase in flight is in DR (R121). -/
theorem operandInDr_of_inv {s : State} {k : Phase} (hs : s.Inv) (hp : s.phase = some k) :
    operandInDr s.dr (some k) = true := by
  obtain ⟨-, -, -, -, hdr⟩ := (inv_iff_of_inFlight hp).mp hs
  exact hdr

/-- RD_DR after a completion returns what the phase left in DR. -/
theorem exec_rdDr_of_completed {k : Phase} {s t : State} (h : exec (phaseInstr k) s = .next t) (ht : t.phase = none) :
    exec .rdDr t = .next { t with result := .byte (drAfter k s t) } := by
  obtain ⟨hf, hdr⟩ := dr_of_phaseInstr_completed h ht
  rw [exec_rdDr_of_rest hf ht, hdr]

/-- Settles O10, by whether a phase is in flight; after a completion DR is as the phase's kind leaves it,
and the byte sent is in DR since the launch. -/
theorem rdDrReturnsDataOrDraw : Obligations.RdDrReturnsDataOrDraw := by
  refine ⟨fun x => decode_pair x 0x03 rfl, fun s => exec_rdDr_of_rest, fun s k => exec_rdDr_of_inFlight, ?again, ?after⟩
  case again =>
    intro s t hp h
    obtain ⟨hf, -⟩ := unlessFaulted_next h
    rw [exec_rdDr_of_rest hf hp] at h
    cases h
    exact exec_rdDr_of_rest hf hp
  case after =>
    intro s t k hs hp h ht
    have hread := exec_rdDr_of_completed h ht
    have hdr := operandInDr_of_inv hs hp
    cases k with
    | sla b | dtx b =>
      obtain rfl : s.dr = b := eq_of_beq hdr
      exact hread
    | drx _ | start | rstart | stop _ => exact hread

end Sys2Proof.Machine
end

section
/-! What each command written to CR does with no phase in flight (R107). -/

namespace Sys2Proof.Machine

theorem exec_commandInstr_of_none {s : State} (hf : s.fault = none) (cmd : Command) (v : Byte) :
    exec (commandInstr v cmd) s = writeCommand cmd v s :=
  (exec_commandInstr cmd v s).trans (unlessFaulted_of_none hf _)

theorem exec_wrCr_of_none {s : State} (hf : s.fault = none) (v : Byte) :
    exec (.wrCr v) s = writeCommand (decodeCommand v) v s :=
  unlessFaulted_of_none hf _

theorem writeCommand_of_inFlight {s : State} (hp : s.phase ≠ none) (cmd : Command) (v : Byte) :
    writeCommand cmd v s = .next (s.raise .writeDuringPhase) :=
  if_pos (Option.isSome_iff_ne_none.mpr hp)

section
variable {s : State} (v : Byte) (hp : s.phase = none)
include hp

theorem writeCommand_unadmitted {cmd : Command} (hc : cmd = .stopStart ∨ cmd = .startNoclr ∨ cmd = .stopNoclr) :
    writeCommand cmd v s = .next (s.raise (.unadmittedCommand v)) := by
  obtain rfl | rfl | rfl := hc <;> simp [writeCommand, hp]

theorem writeCommand_enable :
    writeCommand .enable v s = .next { s with cr := Cr.command s.cr.int false false true v } := by
  simp [writeCommand, hp]

theorem writeCommand_disable_of_idle (ht : s.txn = .idle) :
    writeCommand .disable v s = .next { s with cr := Cr.command s.cr.int false false false v } := by
  simp [writeCommand, hp, ht]

theorem writeCommand_disable_of_not_idle (ht : s.txn ≠ .idle) :
    writeCommand .disable v s = .next (s.raise .disableDuringTransaction) := by
  simp [writeCommand, hp, ht]

theorem writeCommand_start_of_some {k : Phase} (hk : startPhase s.txn = some k) :
    writeCommand .start v s = .next (s.launch k (Cr.command false true false true v)) := by
  simp [writeCommand, hp, hk]

theorem writeCommand_start_of_none (hk : startPhase s.txn = none) :
    writeCommand .start v s = .next (s.raise (.illegalPhase s.txn .start)) := by
  simp [writeCommand, hp, hk]

theorem writeCommand_stop :
    writeCommand .stop v s = .next ({ s with txn := .stopped }.launch (.stop (stopSilent s.txn))
      (Cr.command false false true true v)) := by
  simp [writeCommand, hp]

theorem writeCommand_cont_of_some {cmd : Command} {k : Phase} (hc : cmd = .contNak ∨ cmd = .contAck)
    (hk : contPhase s.txn s.dr (ackOf v) = some k) :
    writeCommand cmd v s = .next (s.launch k (Cr.command false false false true v)) := by
  obtain rfl | rfl := hc <;> simp [writeCommand, hp, hk]

theorem writeCommand_cont_of_none {cmd : Command} (hc : cmd = .contNak ∨ cmd = .contAck)
    (hk : contPhase s.txn s.dr (ackOf v) = none) :
    writeCommand cmd v s = .next (s.raise (.illegalPhase s.txn cmd)) := by
  obtain rfl | rfl := hc <;> simp [writeCommand, hp, hk]

end

theorem stopSilent_eq_decide (txn : Txn) : stopSilent txn = decide (txn = .idle ∨ txn = .lost) := by
  rw [Bool.eq_iff_iff, stopSilent_iff, decide_eq_true_iff]

/-- Where a transaction is open, CMD_START launches a repeated START, but not after an acknowledged
received byte (R79). -/
theorem startPhase_of_midTransaction {txn : Txn} (hm : midTransaction txn = true) (hn : txn ≠ .dataPhase .r .ack) :
    startPhase txn = some .rstart := by
  cases txn with
  | idle | stopped | lost => cases hm
  | started | addrSent _ _ => rfl
  | dataPhase dir answer =>
    cases dir with
    | w => rfl
    | r =>
      cases answer with
      | ack => exact absurd rfl hn
      | nak => rfl

/-- Settles O16, by the command, and for CMD_DISABLE by whether txn is Idle. -/
theorem enableAndDisableLaunchNothing : Obligations.EnableAndDisableLaunchNothing := by
  intro v s hf hp
  refine ⟨?enable, fun ht => ?disable, fun ht => ?notIdle⟩
  case enable => exact (exec_commandInstr_of_none hf .enable v).trans (writeCommand_enable v hp)
  case disable => exact (exec_commandInstr_of_none hf .disable v).trans (writeCommand_disable_of_idle v hp ht)
  case notIdle => exact (exec_commandInstr_of_none hf .disable v).trans (writeCommand_disable_of_not_idle v hp ht)

/-- Settles O17, by the phase that txn selects. -/
theorem cmdStartLaunches : Obligations.CmdStartLaunches := by
  intro v s hf hp
  have hexec : exec (.cmdStart v) s = writeCommand .start v s := exec_commandInstr_of_none hf .start v
  rw [hexec]
  refine ⟨fun ht => ?start, fun hm hn => ?rstart, fun ht => ?illegal⟩
  case start =>
    refine writeCommand_start_of_some v hp ?_
    obtain ht | ht := ht <;> rw [ht] <;> rfl
  case rstart => exact writeCommand_start_of_some v hp (startPhase_of_midTransaction hm hn)
  case illegal =>
    have hraise := writeCommand_start_of_none v hp (by rw [ht]; rfl)
    rw [ht] at hraise
    exact hraise

/-- Settles O18: the STOP is silent where the controller does not own the bus. -/
theorem cmdStopLaunches : Obligations.CmdStopLaunches := by
  intro v s hf hp
  rw [← stopSilent_eq_decide]
  exact (exec_commandInstr_of_none hf .stop v).trans (writeCommand_stop v hp)

/-- Settles O19, by the phase that txn selects. -/
theorem cmdContLaunches : Obligations.CmdContLaunches := by
  intro v s i cmd hf hp hi
  obtain ⟨hexec, hc⟩ : exec i s = writeCommand cmd v s ∧ (cmd = .contNak ∨ cmd = .contAck) := by
    obtain ⟨rfl, rfl⟩ | ⟨rfl, rfl⟩ := hi
    · exact ⟨exec_commandInstr_of_none hf .contNak v, .inl rfl⟩
    · exact ⟨exec_commandInstr_of_none hf .contAck v, .inr rfl⟩
  rw [hexec]
  refine ⟨fun ht => ?address, fun ht => ?transmission, fun ht => ?reception, fun ht => ?illegal⟩
  case address => exact writeCommand_cont_of_some v hp hc (by rw [ht]; rfl)
  case transmission =>
    refine writeCommand_cont_of_some v hp hc ?_
    obtain ht | ⟨a, ht⟩ := ht <;> rw [ht] <;> rfl
  case reception =>
    refine writeCommand_cont_of_some v hp hc ?_
    obtain ht | ht := ht <;> rw [ht] <;> rfl
  case illegal =>
    refine writeCommand_cont_of_none v hp hc ?_
    obtain ht | ⟨d, ht⟩ | ht | ht | ht := ht <;> simp [contPhase, ht]

/-- Settles O20: the check of the phase in flight comes first, then the spelling. -/
theorem unadmittedCommandsFault : Obligations.UnadmittedCommandsFault := by
  refine ⟨fun v s hf hp => ⟨?startNoclr, ?stopNoclr, ?stopStart⟩, fun v s cmd hf hp => ?inFlight⟩
  case startNoclr =>
    exact (exec_commandInstr_of_none hf .startNoclr v).trans (writeCommand_unadmitted v hp (.inr (.inl rfl)))
  case stopNoclr =>
    exact (exec_commandInstr_of_none hf .stopNoclr v).trans (writeCommand_unadmitted v hp (.inr (.inr rfl)))
  case stopStart =>
    exact (exec_commandInstr_of_none hf .stopStart v).trans (writeCommand_unadmitted v hp (.inl rfl))
  case inFlight => exact (exec_commandInstr_of_none hf cmd v).trans (writeCommand_of_inFlight hp cmd v)

/-- The reserved bits of a value written to CR do not matter (R73). -/
theorem decodeCommand_and_0xF4 (v : Byte) : decodeCommand v = decodeCommand (v &&& 0xF4) := by
  simp [decodeCommand]

/-- Settles O15. The decoded command meets its line of R107, by txn where the line asks for it. -/
theorem wrCrFollowsItsRule : Obligations.WrCrFollowsItsRule := by
  refine ⟨fun v => decode_pair v 0x0C rfl, decodeCommand_and_0xF4, fun v s hf => ?_⟩
  rw [exec_wrCr_of_none hf]
  refine ⟨fun hp => writeCommand_of_inFlight hp _ v, fun hp => ?_⟩
  cases decodeCommand v with
  | stopStart => exact writeCommand_unadmitted v hp (.inl rfl)
  | startNoclr => exact writeCommand_unadmitted v hp (.inr (.inl rfl))
  | stopNoclr => exact writeCommand_unadmitted v hp (.inr (.inr rfl))
  | disable =>
    dsimp only
    split
    · exact writeCommand_disable_of_idle v hp ‹_›
    · exact writeCommand_disable_of_not_idle v hp ‹_›
  | enable => exact writeCommand_enable v hp
  | start =>
    dsimp only
    split
    -- START in Idle and Lost, RSTART in the next four, none in DataPhase(R, ACK); Stopped is left open (log 15).
    case h_1 ht | h_2 ht | h_3 ht | h_4 ht | h_5 ht | h_6 ht =>
      exact writeCommand_start_of_some v hp (by simp [startPhase, ht])
    case h_7 ht => exact writeCommand_start_of_none v hp (by rw [ht]; rfl)
    case h_8 => trivial
  | stop =>
    dsimp only
    rw [← stopSilent_eq_decide]
    exact writeCommand_stop v hp
  | contNak | contAck =>
    dsimp only
    split
    -- The launches: SLA in Started, DTX in the next two, DRX in the next two; then where R107 launches none.
    case h_1 ht | h_2 ht | h_3 ht | h_4 ht | h_5 ht =>
      exact writeCommand_cont_of_some v hp (by simp) (by simp [contPhase, ackOf, ht])
    case h_6 ht | h_7 ht | h_8 ht | h_9 ht | h_10 ht =>
      exact writeCommand_cont_of_none v hp (by simp) (by simp [contPhase, ht])

end Sys2Proof.Machine
end

section
/-! The bus trace stays legal (R136, R138): the state of the bus after a trace, and how txn agrees with it. -/

namespace Sys2Proof.Machine

/-! ### The state of the bus after a trace -/

@[simp] theorem busAfter_append_singleton (t : Txn) (es : List Event) (e : Event) :
    busAfter t (es ++ [e]) = eventTxn e := by
  induction es generalizing t with
  | nil => rfl
  | cons x es ih => exact ih (eventTxn x)

@[simp] theorem legalFrom_append_singleton (t : Txn) (es : List Event) (e : Event) :
    legalFrom t (es ++ [e]) = (legalFrom t es && mayFollow (busAfter t es) e) := by
  induction es generalizing t with
  | nil => simp [legalFrom, busAfter]
  | cons x es ih => simp [legalFrom, busAfter, ih, Bool.and_assoc]

/-- No event leads to Stopped: it is the state of a STOP in flight. -/
theorem eventTxn_ne_stopped (e : Event) : eventTxn e ≠ .stopped := by
  cases e with
  | start | rstart | stop => simp [eventTxn]
  | addr _ r | dtx _ r | drx _ r => cases r <;> simp [eventTxn]

theorem busAfter_ne_stopped {t : Txn} (ht : t ≠ .stopped) (es : List Event) : busAfter t es ≠ .stopped := by
  induction es generalizing t with
  | nil => exact ht
  | cons e es ih => exact ih (eventTxn_ne_stopped e)

/-! ### How txn agrees with the trace -/

/-- txn is the state `bus` of the bus, or Idle after a silent STOP that followed a lost arbitration. -/
def AgreesWithBus (txn bus : Txn) : Prop := txn = bus ∨ (txn = .idle ∧ bus = .lost)

theorem traceAgrees_iff_of_no_stop {s : State} (h : stopInFlight s.phase = false) :
    traceAgrees s = true ↔ AgreesWithBus s.txn (busAfter .idle s.trace) := by
  cases hp : s.phase with
  | none => simp [traceAgrees, AgreesWithBus, hp]
  | some k =>
    rw [hp] at h
    cases k with
    | stop _ => cases h
    | start | rstart | sla _ | dtx _ | drx _ => simp [traceAgrees, AgreesWithBus, hp]

theorem traceAgrees_iff_of_stop {s : State} {silent : Bool} (hp : s.phase = some (.stop silent)) :
    traceAgrees s = true ↔ silent = !midTransaction (busAfter .idle s.trace) := by
  simp [traceAgrees, hp]

/-- A STOP is launched silent exactly where the bus has no transaction open. -/
theorem stopSilent_of_agreesWithBus {txn bus : Txn} (h : AgreesWithBus txn bus) (hn : txn ≠ .stopped) :
    stopSilent txn = !midTransaction bus := by
  obtain rfl | ⟨rfl, rfl⟩ := h
  · simp [stopSilent, midTransaction, hn]
  · rfl

/-- Where no transaction is open on the bus, Idle agrees with it. -/
theorem idle_agreesWithBus {bus : Txn} (hm : midTransaction bus = false) (hn : bus ≠ .stopped) :
    AgreesWithBus .idle bus := by
  have hb : ownsBus bus = false := by simpa [midTransaction, hn] using hm
  exact (idle_or_lost_of_not_ownsBus hb).imp Eq.symm fun h => ⟨rfl, h⟩

/-- The event of a phase may follow in the txn that R79 selects the phase in. -/
theorem mayFollow_of_phaseFits {txn : Txn} {k : Phase} {e : Event} (hk : Completes k e)
    (hfits : phaseFits txn (some k) = true) : mayFollow txn e = true := by
  cases hk <;> exact hfits

/-- It may follow on the bus, too: where txn is Idle after a lost arbitration the phase is a START, which may
follow in both. -/
theorem mayFollow_of_agreesWithBus {txn bus : Txn} {k : Phase} {e : Event} (h : AgreesWithBus txn bus)
    (hk : Completes k e) (hfits : phaseFits txn (some k) = true) : mayFollow bus e = true := by
  obtain rfl | ⟨rfl, rfl⟩ := h
  · exact mayFollow_of_phaseFits hk hfits
  · obtain rfl := eq_start_of_phaseFits rfl hfits
    cases hk
    rfl

/-! ### Every move keeps the trace legal -/

/-- The trace invariant speaks of the block's part of a state only. -/
theorem State.TraceInv.of_block_eq {t u : State} (h : t.block = u.block) (hu : u.TraceInv) : t.TraceInv := by
  have ht : t.block.TraceInv := by rw [h]; exact hu
  exact ht

theorem traceInv_launch {s : State} {k : Phase} {c : Cr} (hs : s.TraceInv) (hp : s.phase = none)
    (hk : stopInFlight (some k) = false) : (s.launch k c).TraceInv := by
  obtain ⟨hlegal, hagrees⟩ := hs
  rw [traceAgrees_iff_of_no_stop (by rw [hp]; rfl)] at hagrees
  exact ⟨hlegal, (traceAgrees_iff_of_no_stop (s := s.launch k c) hk).mpr hagrees⟩

theorem traceInv_launchStop {s : State} {c : Cr} (hi : s.Inv) (hs : s.TraceInv) (hp : s.phase = none) :
    ({ s with txn := .stopped }.launch (.stop (stopSilent s.txn)) c).TraceInv := by
  obtain ⟨hlegal, hagrees⟩ := hs
  rw [traceAgrees_iff_of_no_stop (by rw [hp]; rfl)] at hagrees
  obtain ⟨hn, -, -, -⟩ := (inv_iff_of_rest hp).mp hi
  exact ⟨hlegal, (traceAgrees_iff_of_stop rfl).mpr (stopSilent_of_agreesWithBus hagrees hn)⟩

theorem traceInv_complete {s : State} {k : Phase} {e : Event} (d : Byte) (hi : s.Inv) (hs : s.TraceInv)
    (hp : s.phase = some k) (hk : Completes k e) :
    State.TraceInv { s.complete (eventCode e) (eventTxn e) e with dr := d } := by
  obtain ⟨hlegal, hagrees⟩ := hs
  obtain ⟨-, -, hstop⟩ := eventTxn_of_completes hk
  rw [traceAgrees_iff_of_no_stop (by rw [hp]; exact hstop)] at hagrees
  obtain ⟨-, -, -, hfits, -⟩ := (inv_iff_of_inFlight hp).mp hi
  refine ⟨?legal, (traceAgrees_iff_of_no_stop rfl).mpr (.inl ?agrees)⟩
  case legal => simp [hlegal, mayFollow_of_agreesWithBus hagrees hk hfits]
  case agrees => simp

theorem traceInv_completeStop {s : State} {silent : Bool} (hs : s.TraceInv) (hp : s.phase = some (.stop silent)) :
    (s.completeStop silent).TraceInv := by
  obtain ⟨hlegal, hagrees⟩ := hs
  rw [traceAgrees_iff_of_stop hp] at hagrees
  rw [State.TraceInv, traceAgrees_iff_of_no_stop (s := s.completeStop silent) rfl]
  cases silent with
  | true =>
    have hm : midTransaction (busAfter .idle s.trace) = false := by simpa using hagrees
    exact ⟨hlegal, idle_agreesWithBus hm (busAfter_ne_stopped (by simp) _)⟩
  | false =>
    have hm : midTransaction (busAfter .idle s.trace) = true := by simpa using hagrees
    exact ⟨by simp [hlegal, mayFollow, hm], .inl (by simp [eventTxn])⟩

theorem traceInv_of_move {s t : State} (hi : s.Inv) (hs : s.TraceInv) (h : Move s t) : t.TraceInv := by
  cases h with
  | none h | raise _ h | setBr _ h | setPsc _ h | setDr _ _ _ h | setInitialized h | setCr _ _ _ _ h =>
    exact .of_block_eq h hs
  | launch k acken _ hp hk h =>
    refine .of_block_eq h (traceInv_launch hs hp ?_)
    obtain hk | hk := hk
    · obtain rfl | rfl := startPhase_cases hk <;> rfl
    · obtain ⟨rfl, -⟩ | ⟨rfl, -⟩ | ⟨rfl, -⟩ := contPhase_cases hk <;> rfl
  | launchStop _ hp h => exact .of_block_eq h (traceInv_launchStop hi hs hp)
  | complete _ _ d hp hk h => exact .of_block_eq h (traceInv_complete d hi hs hp hk)
  | completeStop _ hp h => exact .of_block_eq h (traceInv_completeStop hs hp)

/-- Settles O52: a step is a move, and each move appends at most the event of a phase that R79 selected in a
txn with which the bus agrees. -/
theorem traceStaysLegal : Obligations.TraceStaysLegal := by
  intro s t hi hs h
  obtain ⟨-, hm⟩ := step_move h
  exact traceInv_of_move hi hs hm

end Sys2Proof.Machine
end

section
/-! What a step leaves as it was while a phase is in flight (R121, R125), and the order in which txn goes through a
transaction (R135, R138). -/

namespace Sys2Proof.Machine

theorem State.cr_of_block_eq {t u : State} (h : t.block = u.block) : t.cr = u.cr := by
  have hb : t.block.cr = u.block.cr := congrArg State.cr h
  exact hb

theorem State.dr_of_block_eq {t u : State} (h : t.block = u.block) : t.dr = u.dr := by
  have hb : t.block.dr = u.block.dr := congrArg State.dr h
  exact hb

/-- `t` has the fields of `s` that keep their values while a phase is in flight (R125). -/
def FrozenFields (s t : State) : Prop :=
  t.phase = s.phase ∧ t.cr = s.cr ∧ t.sr.code = s.sr.code ∧ t.dr = s.dr ∧ t.txn = s.txn ∧ t.trace = s.trace

theorem frozenFields_of_block_eq {t u : State} (h : t.block = u.block) : FrozenFields u t :=
  ⟨State.phase_of_block_eq h, State.cr_of_block_eq h, State.code_of_block_eq h, State.dr_of_block_eq h,
    State.txn_of_block_eq h, State.trace_of_block_eq h⟩

/-- With a phase in flight a move ends it or leaves those fields: a write to CR or DR faults there (R105, R107). -/
theorem frozenFields_of_move {s t : State} (h : Move s t) (hp : s.phase ≠ none) :
    t.phase = none ∨ FrozenFields s t := by
  cases h with
  | none h | raise _ h | setBr _ h | setPsc _ h | setInitialized h => exact .inr (frozenFields_of_block_eq h :)
  | setDr _ hp' _ _ | setCr _ _ hp' _ _ | launch _ _ _ hp' _ _ | launchStop _ hp' _ => exact absurd hp' hp
  | complete _ _ _ _ _ h | completeStop _ _ h => exact .inl (State.phase_of_block_eq h :)

/-- Settles O56: a step is a move, and of the moves only a completion touches a frozen field. -/
theorem inFlightStateIsFrozen : Obligations.InFlightStateIsFrozen := by
  intro s t k hp h
  obtain ⟨-, hm⟩ := step_move h
  refine (frozenFields_of_move hm (by simp [hp])).imp_right fun hfrozen => ?_
  rw [FrozenFields, hp] at hfrozen
  exact hfrozen

/-! ### The order of a transaction -/

theorem mayTransmit_iff (txn : Txn) :
    mayTransmit txn = true ↔ txn = .addrSent .w .ack ∨ txn = .dataPhase .w .ack ∨ txn = .dataPhase .w .nak := by
  constructor
  · intro h
    unfold mayTransmit at h
    split at h
    case h_1 => exact .inl rfl
    case h_2 answer => cases answer <;> simp
    case h_3 => cases h
  · rintro (rfl | rfl | rfl) <;> rfl

theorem mayReceive_iff (txn : Txn) :
    mayReceive txn = true ↔ txn = .addrSent .r .ack ∨ txn = .dataPhase .r .ack := by
  constructor
  · intro h
    unfold mayReceive at h
    split at h
    case h_1 => exact .inl rfl
    case h_2 => exact .inr rfl
    case h_3 => cases h
  · rintro (rfl | rfl) <;> rfl

/-- From which states txn may go to `new` where a phase completes (R126 to R134, R138). -/
def CompletesFrom (new old : Txn) (phase : Option Phase) : Prop :=
  match new with
  | .addrSent _ _ => old = .started
  | .dataPhase d _ => old = .addrSent d .ack ∨ old = .dataPhase d .ack ∨ (d = .w ∧ old = .dataPhase d .nak)
  | .started => phase = some .start ∨ phase = some .rstart
  | .stopped => False
  | .idle => old = .stopped
  | .lost => old = .started ∨ mayTransmit old = true ∨ mayReceive old = true

theorem completesFrom_of_phaseFits {txn : Txn} {k : Phase} {e : Event} (hk : Completes k e)
    (hfits : phaseFits txn (some k) = true) : CompletesFrom (eventTxn e) txn (some k) := by
  cases hk with
  | start => exact .inl rfl
  | rstart => exact .inr rfl
  | addr frame r =>
    have hs : txn = .started := eq_of_beq hfits
    cases r with
    | ack | nak => exact hs
    | lost => exact .inl hs
  | dtx byte r =>
    have ht : mayTransmit txn = true := hfits
    cases r with
    | ack | nak => simpa [CompletesFrom, eventTxn] using (mayTransmit_iff txn).mp ht
    | lost => exact .inr (.inl ht)
  | drxAck _ | drxNak _ =>
    have hr : mayReceive txn = true := hfits
    simpa [CompletesFrom, eventTxn] using (mayReceive_iff txn).mp hr
  | drxLost _ =>
    have hr : mayReceive txn = true := hfits
    exact .inr (.inr hr)

/-- Settles O57: txn changes by the launch of a STOP and by completions, and R79 says in which txn the phase that
completes was launched. -/
theorem transactionOrder : Obligations.TransactionOrder := by
  intro s t hi h hne
  obtain ⟨-, hm⟩ := step_move h
  cases hm with
  | none h | raise _ h | setBr _ h | setPsc _ h | setDr _ _ _ h | setInitialized h | setCr _ _ _ _ h
  | launch _ _ _ _ _ h => exact absurd (State.txn_of_block_eq h) hne
  | launchStop _ _ h =>
    have ht : t.txn = .stopped := State.txn_of_block_eq h
    have hp : t.phase = some (.stop (stopSilent s.txn)) := State.phase_of_block_eq h
    rw [ht, hp, stopSilent_eq_decide]
  | complete k e _ hp hk h =>
    have ht : t.txn = eventTxn e := State.txn_of_block_eq h
    obtain ⟨-, -, -, hfits, -⟩ := (inv_iff_of_inFlight hp).mp hi
    have hfrom := completesFrom_of_phaseFits hk hfits
    rw [ht, hp]
    cases he : eventTxn e with
    | stopped => exact absurd he (eventTxn_ne_stopped e)
    | idle | started | addrSent _ _ | dataPhase _ _ | lost => rw [he] at hfrom; exact hfrom
  | completeStop silent hp h =>
    have ht : t.txn = .idle := State.txn_of_block_eq h
    obtain ⟨-, -, -, hfits, -⟩ := (inv_iff_of_inFlight hp).mp hi
    rw [ht]
    exact eq_of_beq hfits

end Sys2Proof.Machine
end

section
/-! Which phase a write to CR launches (R79, R107), and how each phase completes (R122, R126 to R134). -/

namespace Sys2Proof.Machine

/-! ### The launch -/

section
variable {v : Byte} {s : State} {k : Phase} (hf : s.fault = none) (hp : s.phase = none)
include hf hp

/-- A write to CR launches what its command selects (R107). -/
theorem launches_iff :
    Launches v s k ↔
      (decodeCommand v = .start ∧ startPhase s.txn = some k) ∨
      (decodeCommand v = .stop ∧ k = .stop (stopSilent s.txn)) ∨
      ((decodeCommand v = .contNak ∨ decodeCommand v = .contAck) ∧ contPhase s.txn s.dr (ackOf v) = some k) := by
  have hexec := exec_wrCr_of_none hf v
  constructor
  · rintro ⟨t, ht, hk⟩
    rw [hexec] at ht
    obtain ⟨r, rfl⟩ | ⟨-, -, -, rfl⟩ | ⟨-, -, rfl⟩ | ⟨-, hc, k', hk', rfl⟩ | ⟨-, hc, rfl⟩ | ⟨-, hc, k', hk', rfl⟩ :=
      writeCommand_next ht
    · cases hp.symm.trans hk
    · cases hp.symm.trans hk
    · cases hp.symm.trans hk
    · cases hk
      exact .inl ⟨hc, hk'⟩
    · cases hk
      exact .inr (.inl ⟨hc, rfl⟩)
    · cases hk
      exact .inr (.inr ⟨hc, hk'⟩)
  · rintro (⟨hc, hk⟩ | ⟨hc, rfl⟩ | ⟨hc, hk⟩)
    · exact ⟨_, hexec.trans (by rw [hc]; exact writeCommand_start_of_some v hp hk), rfl⟩
    · exact ⟨_, hexec.trans (by rw [hc]; exact writeCommand_stop v hp), rfl⟩
    · exact ⟨_, hexec.trans (writeCommand_cont_of_some v hp hc hk), rfl⟩

/-- A START or a repeated START is launched by CMD_START. -/
theorem launches_start_iff (hk : k = .start ∨ k = .rstart) :
    Launches v s k ↔ decodeCommand v = .start ∧ startPhase s.txn = some k := by
  rw [launches_iff hf hp]
  refine ⟨?_, .inl⟩
  rintro (h | ⟨-, rfl⟩ | ⟨-, hc⟩)
  · exact h
  · simp at hk
  · obtain ⟨rfl, -⟩ | ⟨rfl, -⟩ | ⟨rfl, -⟩ := contPhase_cases hc <;> simp at hk

/-- A STOP is launched by CMD_STOP. -/
theorem launches_stop_iff (silent : Bool) :
    Launches v s (.stop silent) ↔ decodeCommand v = .stop ∧ silent = stopSilent s.txn := by
  rw [launches_iff hf hp, Phase.stop.injEq]
  refine ⟨?_, fun h => .inr (.inl h)⟩
  rintro (⟨-, hc⟩ | h | ⟨-, hc⟩)
  · obtain hk | hk := startPhase_cases hc <;> cases hk
  · exact h
  · obtain ⟨hk, -⟩ | ⟨hk, -⟩ | ⟨hk, -⟩ := contPhase_cases hc <;> cases hk

/-- Every other phase is launched by a continue command. -/
theorem launches_cont_iff (hstart : k ≠ .start ∧ k ≠ .rstart) (hstop : stopInFlight (some k) = false) :
    Launches v s k ↔
      (decodeCommand v = .contNak ∨ decodeCommand v = .contAck) ∧ contPhase s.txn s.dr (ackOf v) = some k := by
  rw [launches_iff hf hp]
  refine ⟨?_, fun h => .inr (.inr h)⟩
  rintro (⟨-, hc⟩ | ⟨-, rfl⟩ | h)
  · exact absurd (startPhase_cases hc) (not_or.mpr hstart)
  · cases hstop
  · exact h

end

/-! ### The selection (R79) -/

theorem startPhase_eq_start_iff (txn : Txn) : startPhase txn = some .start ↔ txn = .idle ∨ txn = .lost := by
  unfold startPhase
  split <;> simp

theorem startPhase_eq_rstart_iff (txn : Txn) :
    startPhase txn = some .rstart ↔
      txn = .started ∨ (∃ d a, txn = .addrSent d a) ∨ (∃ a, txn = .dataPhase .w a) ∨ txn = .dataPhase .r .nak := by
  unfold startPhase
  split <;> simp

section
variable (txn : Txn) (dr : Byte) (acken : Bool)

theorem contPhase_eq_sla_iff (frame : Byte) :
    contPhase txn dr acken = some (.sla frame) ↔ txn = .started ∧ dr = frame := by
  unfold contPhase
  split <;> simp

theorem contPhase_eq_dtx_iff (byte : Byte) :
    contPhase txn dr acken = some (.dtx byte) ↔ mayTransmit txn = true ∧ dr = byte := by
  unfold contPhase
  split <;> simp [mayTransmit]

theorem contPhase_eq_drx_iff (b : Bool) :
    contPhase txn dr acken = some (.drx b) ↔ acken = b ∧ mayReceive txn = true := by
  unfold contPhase
  split <;> simp [mayReceive]

end

/-- CMD_CONT_ACK and CMD_CONT_NAK are told apart by bit 6, the new ACKEN (R73, R77). -/
theorem decodeCommand_cont_iff : ∀ (v : Byte) (b : Bool),
    (decodeCommand v = .contNak ∨ decodeCommand v = .contAck) ∧ ackOf v = b ↔
      decodeCommand v = if b then .contAck else .contNak := by
  decide

/-- A reception is launched with ACK by CMD_CONT_ACK and with NAK by CMD_CONT_NAK (R131, R132). -/
theorem launches_drx_iff {v : Byte} {s : State} (hf : s.fault = none) (hp : s.phase = none) (b : Bool) :
    Launches v s (.drx b) ↔
      decodeCommand v = (if b then .contAck else .contNak) ∧
        (s.txn = .addrSent .r .ack ∨ s.txn = .dataPhase .r .ack) := by
  rw [launches_cont_iff hf hp (by simp) rfl, contPhase_eq_drx_iff, ← and_assoc, decodeCommand_cont_iff, mayReceive_iff]

/-- The address phase of a frame is launched in Started with the frame in DR, whatever its direction (R128, R129). -/
theorem launches_sla_iff {v : Byte} {s : State} (frame : Byte) (hf : s.fault = none) (hp : s.phase = none) :
    Launches v s (.sla frame) ↔
      (decodeCommand v = .contNak ∨ decodeCommand v = .contAck) ∧ s.txn = .started ∧ s.dr = frame := by
  rw [launches_cont_iff hf hp (by simp) rfl, contPhase_eq_sla_iff]

/-! ### The completion -/

/-- Where ENV permits the phase in flight, SEQ's step applies its effect to ENV's answers (R122). -/
theorem seqComplete_of_permits {k : Phase} {effect : Turn → State → State} {s : State} (hf : s.fault = none)
    (hp : s.phase = some k) (hq : (s.turn k).permits = true) :
    seqComplete k effect s = .next (effect (s.turn k) s.nextTurn) := by
  simp [seqComplete, unlessFaulted_of_none hf, hp, hq]

/-- There is no completion of a phase that is not in flight (log 8). -/
theorem seqComplete_of_not_inFlight {k : Phase} {effect : Turn → State → State} {s : State} (hf : s.fault = none)
    (hp : s.phase ≠ some k) : seqComplete k effect s = .refused .phaseNotInFlight := by
  simp [seqComplete, unlessFaulted_of_none hf, hp]

theorem exec_phStart_of_permits {s : State} (hf : s.fault = none) (hp : s.phase = some .start)
    (hq : (s.turn .start).permits = true) : exec .phStart s = .next (s.nextTurn.complete .start .started .start) :=
  show execPhStart s = _ from seqComplete_of_permits hf hp hq

/-- Settles O21: CMD_START selects START in Idle and Lost. -/
theorem phStartCompletes : Obligations.PhStartCompletes := by
  refine ⟨fun v s hf hp => ?launch, fun s hf hp hq => ?completion, fun s hf hp hq => ?wait⟩
  case launch => rw [launches_start_iff hf hp (.inl rfl), startPhase_eq_start_iff]
  case completion => exact exec_phStart_of_permits hf hp hq
  case wait => exact exec_phaseInstr_of_not_permits (k := .start) hf hp hq

/-- Settles O22: CMD_START selects a repeated START where a transaction is open. -/
theorem phRstartCompletes : Obligations.PhRstartCompletes := by
  refine ⟨fun v s hf hp => ?launch, fun s hf hp hq => ?completion⟩
  case launch => rw [launches_start_iff hf hp (.inr rfl), startPhase_eq_rstart_iff]
  case completion => exact show execPhRstart s = _ from seqComplete_of_permits hf hp hq

/-- Settles O23, by ENV's answer to the address. -/
theorem phSlaWCompletes : Obligations.PhSlaWCompletes := by
  refine ⟨fun v s frame => launches_sla_iff frame, fun s frame _ hf hp hq => ?completion⟩
  case completion =>
    have hexec : exec (.phSlaW frame) s = _ := show execPhSlaW frame s = _ from seqComplete_of_permits hf hp hq
    rw [hexec]
    cases (s.turn (.sla frame)).addrReply <;> rfl

/-- Settles O24, by ENV's answer to the address. -/
theorem phSlaRCompletes : Obligations.PhSlaRCompletes := by
  refine ⟨fun v s frame => launches_sla_iff frame, fun s frame _ hf hp hq => ?completion⟩
  case completion =>
    have hexec : exec (.phSlaR frame) s = _ := show execPhSlaR frame s = _ from seqComplete_of_permits hf hp hq
    rw [hexec]
    cases (s.turn (.sla frame)).addrReply <;> rfl

/-- Settles O25: a continue command selects a transmission where one may follow; by ENV's answer to the byte. -/
theorem phDataTxCompletes : Obligations.PhDataTxCompletes := by
  refine ⟨fun v s byte hf hp => ?launch, fun s byte hf hp hq => ?completion⟩
  case launch => rw [launches_cont_iff hf hp (by simp) rfl, contPhase_eq_dtx_iff, mayTransmit_iff]
  case completion =>
    have hexec : exec (.phDataTx byte) s = _ := show execPhDataTx byte s = _ from seqComplete_of_permits hf hp hq
    rw [hexec]
    cases (s.turn (.dtx byte)).dataReply <;> rfl

/-- Settles O26: the received byte is ENV's, whatever it says of the arbitration. -/
theorem phDataRxAckCompletes : Obligations.PhDataRxAckCompletes := by
  refine ⟨fun v s hf hp => launches_drx_iff hf hp true, fun s hf hp hq => ?completion⟩
  case completion => exact show execPhDataRxAck s = _ from seqComplete_of_permits hf hp hq

/-- Settles O27, by whether arbitration was lost while the NAK was sent. -/
theorem phDataRxNakCompletes : Obligations.PhDataRxNakCompletes := by
  refine ⟨fun v s hf hp => launches_drx_iff hf hp false, fun s hf hp hq => ?completion⟩
  case completion =>
    have hexec : exec .phDataRxNak s = _ := show execPhDataRxNak s = _ from seqComplete_of_permits hf hp hq
    rw [hexec]
    cases (s.turn (.drx false)).readLost <;> rfl

/-- Settles O28: CMD_STOP launches in every txn, and its operand says whether the STOP is on the bus. -/
theorem phStopCompletes : Obligations.PhStopCompletes := by
  refine ⟨fun v s silent hf hp => ?launch, fun v s t hp hc h => ?stopped, fun s silent hf hp hq => ?completion⟩
  case launch => rw [launches_stop_iff hf hp, ← stopSilent_iff, Bool.eq_iff_iff]
  case stopped =>
    obtain ⟨hf, -⟩ := unlessFaulted_next h
    rw [exec_wrCr_of_none hf, hc, writeCommand_stop v hp] at h
    cases h
    rfl
  case completion =>
    have hexec : exec (.phStop silent) s = _ := show execPhStop silent s = _ from seqComplete_of_permits hf hp hq
    rw [hexec]
    cases silent with
    | true => rw [if_pos rfl, List.append_nil]; rfl
    | false => rfl

/-- Settles O29: SEQ's step for the phase in flight waits for ENV, and for any other phase there is none. -/
theorem phaseWaitsForItsEnvironment : Obligations.PhaseWaitsForItsEnvironment := by
  refine ⟨fun s k => exec_phaseInstr_of_not_permits, fun s k hf hp => ?refused⟩
  case refused =>
    obtain ⟨effect, heffect⟩ := exec_phaseInstr k
    rw [heffect]
    exact seqComplete_of_not_inFlight hf hp

end Sys2Proof.Machine
end

section
/-! A bus without other masters (R123, R205): nothing but ENV's answers brings an operation into Lost. -/

namespace Sys2Proof.Machine

/-- An operation that appends no event whatever the trace is leaves the trace as it is. -/
theorem trace_of_silent {f : State → Outcome} {s t : State} (hq : ∀ past, f (s.withTrace past) = setTrace past (f s))
    (h : f s = .next t) : t.trace = s.trace := by
  have hs : f s = setTrace s.trace (f s) := hq s.trace
  rw [h] at hs
  have ht : t = t.withTrace s.trace := Host.Outcome.next.inj hs
  rw [ht]
  rfl

/-- Lost is entered with an event on the bus only. -/
theorem lost_of_move_of_trace_eq {s t : State} (h : Move s t) (htrace : t.trace = s.trace) (ht : t.txn = .lost) :
    s.txn = .lost := by
  cases h with
  | none h | raise _ h | setBr _ h | setPsc _ h | setDr _ _ _ h | setInitialized h | setCr _ _ _ _ h
  | launch _ _ _ _ _ h => exact (State.txn_of_block_eq h).symm.trans ht
  | launchStop _ _ h | completeStop _ _ h => cases (State.txn_of_block_eq h).symm.trans ht
  | complete _ e _ _ _ h =>
    have happend : s.trace = s.trace ++ [e] := htrace.symm.trans (State.trace_of_block_eq h)
    simp at happend

/-- SEQ's step enters Lost only by its effect: where the phase stays in flight txn is as it was. -/
theorem lost_of_seqComplete {k : Phase} {effect : Turn → State → State} {s t : State}
    (h : seqComplete k effect s = .next t)
    (he : s.phase = some k → (effect (s.turn k) s.nextTurn).txn ≠ .lost) (ht : t.txn = .lost) : s.txn = .lost := by
  obtain ⟨-, hp, ⟨-, rfl⟩ | ⟨-, rfl⟩⟩ := seqComplete_next h
  · exact absurd ht (he hp)
  · exact ht

theorem singleMaster_iff (k : Phase) (t : Turn) :
    singleMaster k t = true ↔
      t.addrReply ≠ .lost ∧ t.dataReply ≠ .lost ∧ t.readLost = false ∧ (k = .start → t.permits = true) := by
  simp [singleMaster, and_assoc, imp_iff_not_or]

/-- With ENV's answers those of a bus without other masters no operation enters Lost: HOST's operations put no
event on the bus, and no phase's answer is LOST. -/
theorem lost_of_exec {i : Instr} {s t : State} (hw : i.wf = true)
    (hs : ∀ k, s.phase = some k → singleMaster k (s.turn k) = true) (h : exec i s = .next t) (ht : t.txn = .lost) :
    s.txn = .lost := by
  have hsilent (hq : ∀ past, exec i (s.withTrace past) = setTrace past (exec i s)) : s.txn = .lost :=
    lost_of_move_of_trace_eq (exec_move hw h) (trace_of_silent hq h) ht
  have hanswers {k : Phase} (hp : s.phase = some k) := (singleMaster_iff k (s.turn k)).mp (hs k hp)
  cases i with
  | rdBr => exact hsilent fun past => regRead_withTrace past s 0
  | rdSr => exact hsilent fun past => regRead_withTrace past s 1
  | rdDr => exact hsilent fun past => regRead_withTrace past s 3
  | rdCr => exact hsilent fun past => regRead_withTrace past s 4
  | wrBr d => exact hsilent fun past => regWrite_withTrace past s 0 d
  | wrSr v => exact hsilent fun past => regWrite_withTrace past s 1 v
  | wrDr d => exact hsilent fun past => regWrite_withTrace past s 3 d
  | wrCr v => exact hsilent fun past => regWrite_withTrace past s 4 v
  | reservedOff2 we d | reservedOff5 we d | reservedOff6 we d | reservedOff7 we d =>
    exact hsilent fun past => regAccess_withTrace past s we _ d
  | cmdDisable v | cmdEnable v | cmdStart v | cmdStop v | cmdContNak v | cmdContAck v | cmdStartNoclr v
  | cmdStopNoclr v | cmdStopStart v => exact hsilent fun past => command_withTrace past s _ v
  | initializeBus f => exact hsilent fun past => execInitialize_withTrace past s f
  | status => exact hsilent fun past => callPrimitive_withTrace past s none [.run .rdSr, .maskStatus]
  | start | stop | transmitAddress _ _ | transmitByte _ | receiveByte _ =>
    exact hsilent fun past => callPrimitive_withTrace past s _ _
  | describe _ | waitUntilWriteComplete => exact hsilent fun past => unlessFaulted_withTrace rfl
  | readByte _ | writeByte _ _ => exact hsilent fun past => beginSequence_withTrace past s _
  | writePage a data => exact hsilent fun past => execWritePage_withTrace past s a data
  | sequentialRead a count => exact hsilent fun past => execSequentialRead_withTrace past s a count
  | phStart => exact lost_of_seqComplete (show execPhStart s = _ from h) (fun _ => by simp) ht
  | phRstart => exact lost_of_seqComplete (show execPhRstart s = _ from h) (fun _ => by simp) ht
  | phStop silent => exact lost_of_seqComplete (show execPhStop silent s = _ from h) (fun _ => by simp) ht
  | phDataRxAck => exact lost_of_seqComplete (show execPhDataRxAck s = _ from h) (fun _ => by simp) ht
  | phSlaW frame =>
    refine lost_of_seqComplete (show execPhSlaW frame s = _ from h) (fun hp => ?_) ht
    obtain ⟨haddr, -, -, -⟩ := hanswers hp
    cases hr : (s.turn (.sla frame)).addrReply with
    | ack | nak => simp
    | lost => exact absurd hr haddr
  | phSlaR frame =>
    refine lost_of_seqComplete (show execPhSlaR frame s = _ from h) (fun hp => ?_) ht
    obtain ⟨haddr, -, -, -⟩ := hanswers hp
    cases hr : (s.turn (.sla frame)).addrReply with
    | ack | nak => simp
    | lost => exact absurd hr haddr
  | phDataTx byte =>
    refine lost_of_seqComplete (show execPhDataTx byte s = _ from h) (fun hp => ?_) ht
    obtain ⟨-, hdata, -, -⟩ := hanswers hp
    cases hr : (s.turn (.dtx byte)).dataReply with
    | ack | nak => simp
    | lost => exact absurd hr hdata
  | phDataRxNak =>
    refine lost_of_seqComplete (show execPhDataRxNak s = _ from h) (fun hp => ?_) ht
    obtain ⟨-, -, hread, -⟩ := hanswers hp
    simp [hread]

/-- Settles O58: Lost needs an answer that such a bus does not give, and it permits a START at once. -/
theorem singleMasterNeverLoses : Obligations.SingleMasterNeverLoses := by
  refine ⟨fun i s t => lost_of_exec, fun s hf hp hs hq => ?start⟩
  case start =>
    obtain ⟨-, -, -, hpermits⟩ := (singleMaster_iff .start _).mp hs
    rw [step_of_seqTurn hf hp hq]
    exact exec_phStart_of_permits hf hp (hpermits rfl)

end Sys2Proof.Machine
end

section
/-! The calls of the primitives: the contract checks and the expansions (R150 to R157). -/

namespace Sys2Proof.Machine

theorem callPrimitive_of_none {s : State} {violation : Option Contract} (ops : List HostOp) (hf : s.fault = none)
    (hv : violation = none) : callPrimitive violation ops s = .next (s.push ops) := by
  subst hv
  exact unlessFaulted_of_none hf _

theorem callPrimitive_of_some {s : State} {violation : Option Contract} {c : Contract} (ops : List HostOp)
    (hf : s.fault = none) (hv : violation = some c) :
    callPrimitive violation ops s = .next (s.raise (.contractViolation c)) := by
  subst hv
  exact unlessFaulted_of_none hf _

theorem requireInitialized_of_initialized {s : State} (hi : s.initialized = true) : requireInitialized s = none :=
  if_pos hi

theorem requireInitialized_of_not_initialized {s : State} (hi : s.initialized = false) :
    requireInitialized s = some .notInitialized :=
  if_neg (by simp [hi])

theorem requireTxn_of_permitted {s : State} {permitted : Bool} (prim : Prim) (hi : s.initialized = true)
    (hp : permitted = true) : requireTxn prim permitted s = none := by
  simp [requireTxn, hi, hp]

theorem requireTxn_of_not_initialized {s : State} (prim : Prim) (permitted : Bool) (hi : s.initialized = false) :
    requireTxn prim permitted s = some .notInitialized := by
  simp [requireTxn, hi]

theorem requireTxn_of_not_permitted {s : State} {permitted : Bool} (prim : Prim) (hi : s.initialized = true)
    (hp : permitted = false) : requireTxn prim permitted s = some (.callOrder prim s.txn) := by
  simp [requireTxn, hi, hp]

/-- Natural subtraction stops at 0, as the case split of R150 does. -/
theorem dividerFor_eq (f : Nat) : dividerFor f = BitVec.ofNat 8 ((16000000 / f - 16) / 8) := by
  have hmax : (if 16000000 / f ≥ 16 then 16000000 / f - 16 else 0) = 16000000 / f - 16 := by
    split <;> omega
  exact congrArg (fun n => BitVec.ofNat 8 (n / 8)) hmax

/-! ### The calls -/

section
variable {s : State} {f : Nat} {raw data : Byte} {dir : Dir} {acken : Bool} (hf : s.fault = none)
include hf

theorem exec_initializeBus_of_ne_zero (hi : s.initialized = false) (h0 : f ≠ 0) :
    exec (.initializeBus f) s = .next (s.push (initializeOps (dividerFor f))) := by
  simp only [exec, execInitialize, unlessFaulted_of_none hf, hi, h0, Bool.false_eq_true, if_false]

theorem exec_initializeBus_zero (hi : s.initialized = false) :
    exec (.initializeBus 0) s = .next (s.drawn.push (initializeOps s.freeByte)) := by
  simp only [exec, execInitialize, unlessFaulted_of_none hf, hi, Bool.false_eq_true, if_false, if_true]

theorem exec_initializeBus_of_initialized (hi : s.initialized = true) :
    exec (.initializeBus f) s = .next (s.raise (.contractViolation .alreadyInitialized)) := by
  simp only [exec, execInitialize, unlessFaulted_of_none hf, hi, if_true]

theorem exec_start_of_initialized (hi : s.initialized = true) :
    exec .start s = .next (s.push [.run (.wrCr 0xA4), .waitInt, .retUnit]) :=
  callPrimitive_of_none _ hf (requireInitialized_of_initialized hi)

theorem exec_stop_of_initialized (hi : s.initialized = true) :
    exec .stop s = .next (s.push [.run (.wrCr 0x94), .waitSto, .retUnit]) :=
  callPrimitive_of_none _ hf (requireInitialized_of_initialized hi)

theorem exec_status : exec .status s = .next (s.push [.run .rdSr, .maskStatus]) :=
  show execStatus s = _ from callPrimitive_of_none _ hf rfl

theorem exec_transmitAddress_of_started (hi : s.initialized = true) (ht : s.txn = .started) :
    exec (.transmitAddress raw dir) s =
      .next (s.push [.run (.wrDr (addressFrame raw dir)), .run (.wrCr 0x84), .waitInt, .retUnit]) :=
  callPrimitive_of_none _ hf (requireTxn_of_permitted _ hi (beq_iff_eq.mpr ht))

theorem exec_transmitByte_of_mayTransmit (hi : s.initialized = true) (ht : mayTransmit s.txn = true) :
    exec (.transmitByte data) s = .next (s.push [.run (.wrDr data), .run (.wrCr 0x84), .waitInt, .retUnit]) :=
  callPrimitive_of_none _ hf (requireTxn_of_permitted _ hi ht)

theorem exec_receiveByte_of_mayReceive (hi : s.initialized = true) (ht : mayReceive s.txn = true) :
    exec (.receiveByte acken) s =
      .next (s.push [.run (.wrCr (if acken then 0xC4 else 0x84)), .waitInt, .run .rdDr]) :=
  callPrimitive_of_none _ hf (requireTxn_of_permitted _ hi ht)

end

/-- Settles O30: each contract holds, so the call pushes the primitive's expansion. -/
theorem primitivesExpand : Obligations.PrimitivesExpand := by
  intro s hf
  refine ⟨fun f hi h0 => ?initializeBus, exec_initializeBus_zero hf, exec_start_of_initialized hf,
    exec_stop_of_initialized hf, exec_status hf, fun raw dir hi ht => ?address, fun data hi ht => ?transmit,
    fun acken hi ht => ?receive⟩
  case initializeBus =>
    rw [exec_initializeBus_of_ne_zero hf hi h0, dividerFor_eq]
    rfl
  case address =>
    rw [exec_transmitAddress_of_started hf hi ht]
    cases dir <;> rfl
  case transmit => exact exec_transmitByte_of_mayTransmit hf hi ((mayTransmit_iff _).mpr ht)
  case receive => exact exec_receiveByte_of_mayReceive hf hi ((mayReceive_iff _).mpr ht)

/-- Settles O31: by the check that fails, `initialized` before txn. -/
theorem contractViolationsFault : Obligations.ContractViolationsFault := by
  intro s hf
  refine ⟨fun f => exec_initializeBus_of_initialized hf, fun hi i h => ?notInitialized, fun hi ht raw dir => ?address,
    fun hi hack hdack hdnak d => ?transmit, fun hi hack hdack a => ?receive⟩
  case notInitialized =>
    obtain rfl | rfl | ⟨raw, dir, rfl⟩ | ⟨d, rfl⟩ | ⟨a, rfl⟩ := h
    · exact callPrimitive_of_some _ hf (requireInitialized_of_not_initialized hi)
    · exact callPrimitive_of_some _ hf (requireInitialized_of_not_initialized hi)
    · exact callPrimitive_of_some _ hf (requireTxn_of_not_initialized _ _ hi)
    · exact callPrimitive_of_some _ hf (requireTxn_of_not_initialized _ _ hi)
    · exact callPrimitive_of_some _ hf (requireTxn_of_not_initialized _ _ hi)
  case address =>
    exact callPrimitive_of_some _ hf (requireTxn_of_not_permitted _ hi (beq_eq_false_iff_ne.mpr ht))
  case transmit =>
    have hn : mayTransmit s.txn = false := Bool.eq_false_iff.mpr fun h => by
      obtain h | h | h := (mayTransmit_iff _).mp h
      · exact hack h
      · exact hdack h
      · exact hdnak h
    exact callPrimitive_of_some _ hf (requireTxn_of_not_permitted _ hi hn)
  case receive =>
    have hn : mayReceive s.txn = false := Bool.eq_false_iff.mpr fun h =>
      ((mayReceive_iff _).mp h).elim hack hdack
    exact callPrimitive_of_some _ hf (requireTxn_of_not_permitted _ hi hn)

end Sys2Proof.Machine
end

section
/-! HOST's pieces of work at rest, one step each (R59, R150 to R156, log 7). -/

namespace Sys2Proof.Machine

theorem runSteps_of_step {n : Nat} {s t : State} {o : Outcome} (h : step s = .next t) (hr : runSteps n t = o) :
    runSteps (n + 1) s = o :=
  (runSteps_succ h).trans hr

section
variable {s t : State} {i : Instr} {more : List HostOp} (hf : s.fault = none) (hp : s.phase = none)
include hf hp

theorem step_of_run (ht : s.todo = .run i :: more) (hw : i.wf = true)
    (h : exec i { s with todo := more } = .next t) : step s = .next t :=
  (step_idle hf hp).trans ((hostMove_of_run ht hw).trans h)

theorem step_of_setInitialized (ht : s.todo = .setInitialized :: more) :
    step s = .next { s with todo := more, initialized := true } := by
  rw [step_idle hf hp, hostMove, ht]
  rfl

theorem step_of_maskStatus (ht : s.todo = .maskStatus :: more) :
    step s = .next { s with todo := more, result := maskValue s.result } := by
  rw [step_idle hf hp, hostMove, ht]
  rfl

theorem step_of_retUnit (ht : s.todo = .retUnit :: more) : step s = .next { s with todo := more, result := .unit } := by
  rw [step_idle hf hp, hostMove, ht]
  rfl

/-- The wait on INT ends with a read of CR that gives INT = 1 (R151). -/
theorem step_of_waitInt (ht : s.todo = .waitInt :: more) (hc : s.cr.int = true) :
    step s = .next { s with todo := more, result := .byte s.cr.toByte } := by
  rw [step_idle hf hp, hostMove, ht]
  exact if_pos ((toByte_bit7 s.cr).trans hc)

/-- The wait on STO ends with a read of CR that gives STO = 0 (R152). -/
theorem step_of_waitSto (ht : s.todo = .waitSto :: more) (hc : s.cr.sto = false) :
    step s = .next { s with todo := more, result := .byte s.cr.toByte } := by
  rw [step_idle hf hp, hostMove, ht]
  exact if_pos (show (!s.cr.toByte.bit 4) = true by rw [toByte_bit4, hc]; rfl)

end

theorem exec_wrCr_of_enable {s : State} {v : Byte} (hf : s.fault = none) (hp : s.phase = none)
    (hv : decodeCommand v = .enable) :
    exec (.wrCr v) s = .next { s with cr := Cr.command s.cr.int false false true v } := by
  rw [exec_wrCr_of_none hf, hv, writeCommand_enable v hp]

/-- The mask of R82 leaves CODE. -/
theorem toByte_and_statusMask (r : Sr) : r.toByte &&& statusMask = r.code ++ 0#3 := by
  obtain ⟨code, psc⟩ := r
  revert code psc
  decide

/-- Settles O38: the call, the read of SR, and the mask. -/
theorem statusRuns : Obligations.StatusRuns := by
  intro s more hf hp ht
  rw [← toByte_and_statusMask]
  refine runSteps_of_step (step_of_run hf hp ht rfl (exec_status hf)) ?_
  refine runSteps_of_step (step_of_run hf hp rfl rfl (exec_rdSr hf)) ?_
  refine runSteps_of_step (step_of_maskStatus hf hp rfl) ?_
  rfl

/-- The five pieces of the expansion of R150. -/
theorem runSteps_initializeOps {s : State} {brv : Byte} (hf : s.fault = none) (hp : s.phase = none) :
    runSteps 5 (s.push (initializeOps brv)) = .next { s with
      cr := ⟨s.cr.int, false, false, false, true⟩, sr := { s.sr with psc := 1 }, br := brv, initialized := true,
      result := .unit } := by
  refine runSteps_of_step (step_of_run hf hp rfl rfl (exec_wrSr 0x01 hf)) ?_
  refine runSteps_of_step (step_of_run hf hp rfl rfl (exec_wrBr brv hf)) ?_
  refine runSteps_of_step (step_of_run hf hp rfl rfl (exec_wrCr_of_enable hf hp (v := 0x04) rfl)) ?_
  refine runSteps_of_step (step_of_setInitialized hf hp rfl) ?_
  refine runSteps_of_step (step_of_retUnit hf hp rfl) ?_
  rfl

/-- Settles O35: the divider is the formula's, or a free draw for target 0; then the expansion runs. -/
theorem initializeRuns : Obligations.InitializeRuns := by
  refine ⟨fun s f more hf hp hi ht => ?runs, fun s f hf hi => exec_initializeBus_of_initialized hf hi, rfl, ?clock⟩
  case runs =>
    by_cases h0 : f = 0
    · subst h0
      refine ⟨s.freeByte, s.draws + 1, fun h => absurd rfl h, ?_⟩
      refine runSteps_of_step (step_of_run hf hp ht rfl (exec_initializeBus_zero hf hi)) ?_
      exact runSteps_initializeOps hf hp
    · refine ⟨dividerFor f, s.draws, fun _ => dividerFor_eq f, ?_⟩
      refine runSteps_of_step (step_of_run hf hp ht rfl (exec_initializeBus_of_ne_zero hf hi h0)) ?_
      exact runSteps_initializeOps hf hp
  case clock =>
    have hfactor : 16 + 2 * (0x12 : Byte).toNat * prescaler 1 = 160 := by decide
    norm_num [busClock, Config.fSrc, hfactor]

end Sys2Proof.Machine
end

section
/-! A phase from its launch to its completion, over any number of turns in which it does not complete (R10, R122, R151,
R152). -/

namespace Sys2Proof.Machine

/-! ### What a completion does -/

/-- A phase other than STOP completes with the event `e`, which fixes the code and txn (R138). -/
def State.completeWith (e : Event) (s : State) : State := s.complete (eventCode e) (eventTxn e) e

/-- An address or data-transmission phase completes with ENV's answer; DR is a free value where arbitration was
lost (R128 to R130, R133). -/
def State.completeSent (e : Event) (answer : Reply) (s : State) : State :=
  { s.completeWith e with
    dr := if answer = .lost then s.freeByte else s.dr
    draws := if answer = .lost then s.draws + 1 else s.draws }

/-- The reply to a received byte in its event: the answer asked for, or LOST where arbitration was lost while the NAK
was sent (R131, R132). -/
def receiveReply (acken lost : Bool) : Reply := if acken then .ack else if lost then .lost else .nak

/-- What the completion of the phase `k` does, with ENV's answers in the turn `t` (R126 to R134). -/
def phaseEffect (k : Phase) (t : Turn) (s : State) : State :=
  match k with
  | .start => s.completeWith .start
  | .rstart => s.completeWith .rstart
  | .sla frame => s.completeSent (.addr frame t.addrReply) t.addrReply
  | .dtx byte => s.completeSent (.dtx byte t.dataReply) t.dataReply
  | .drx acken => { s.completeWith (.drx t.readByte (receiveReply acken t.readLost)) with dr := t.readByte }
  | .stop silent => s.completeStop silent

/-- SEQ's instruction for an address phase goes by the frame's direction bit (R79). -/
theorem exec_phaseInstr_sla (frame : Byte) (s : State) :
    exec (phaseInstr (.sla frame)) s = if frame.bit 0 then execPhSlaR frame s else execPhSlaW frame s := by
  rw [phaseInstr]
  cases frame.bit 0 <;> rfl

/-- Where ENV permits the phase in flight, SEQ's step has the phase's effect (R122). -/
theorem exec_phaseInstr_of_permits {s : State} {k : Phase} (hf : s.fault = none) (hp : s.phase = some k)
    (hq : (s.turn k).permits = true) : exec (phaseInstr k) s = .next (phaseEffect k (s.turn k) s.nextTurn) := by
  cases k with
  | start => exact show execPhStart s = _ from seqComplete_of_permits hf hp hq
  | rstart => exact show execPhRstart s = _ from seqComplete_of_permits hf hp hq
  | stop silent => exact show execPhStop silent s = _ from seqComplete_of_permits hf hp hq
  | dtx byte =>
    refine (show execPhDataTx byte s = _ from seqComplete_of_permits hf hp hq).trans ?_
    rw [phaseEffect]
    cases (s.turn (.dtx byte)).dataReply <;> rfl
  | sla frame =>
    rw [exec_phaseInstr_sla, phaseEffect]
    cases hb : frame.bit 0 with
    | false =>
      refine (show execPhSlaW frame s = _ from seqComplete_of_permits hf hp hq).trans ?_
      cases (s.turn (.sla frame)).addrReply <;>
        simp only [State.completeSent, State.completeWith, eventCode, eventTxn, frameDir, hb] <;> rfl
    | true =>
      refine (show execPhSlaR frame s = _ from seqComplete_of_permits hf hp hq).trans ?_
      cases (s.turn (.sla frame)).addrReply <;>
        simp only [State.completeSent, State.completeWith, eventCode, eventTxn, frameDir, hb] <;> rfl
  | drx acken =>
    cases acken with
    | true => exact show execPhDataRxAck s = _ from seqComplete_of_permits hf hp hq
    | false =>
      refine (show execPhDataRxNak s = _ from seqComplete_of_permits hf hp hq).trans ?_
      rw [phaseEffect]
      cases (s.turn (.drx false)).readLost <;> rfl

section
variable (k : Phase) (t : Turn) (s : State)

/-- A completion leaves no phase in flight, raises no fault, and leaves HOST's work as it is. -/
theorem phaseEffect_frame :
    (phaseEffect k t s).phase = none ∧ (phaseEffect k t s).fault = s.fault ∧ (phaseEffect k t s).todo = s.todo := by
  cases k <;> exact ⟨rfl, rfl, rfl⟩

/-- A completion does not depend on HOST's last value, and keeps it. -/
theorem phaseEffect_result (v : HostValue) :
    phaseEffect k t { s with result := v } = { phaseEffect k t s with result := v } := by
  cases k <;> rfl

end

/-! ### HOST's wait for it -/

/-- The wait in which HOST spends the phase `k`: for a STOP on STO, for every other phase on INT (R151, R152). -/
def waitOf : Phase → HostOp
  | .stop _ => .waitSto
  | .start | .rstart | .sla _ | .dtx _ | .drx _ => .waitInt

/-- HOST's wait ends at its first read after the completion: INT is 1, or after a STOP STO is 0. -/
theorem step_of_completed {k : Phase} {s : State} {more : List HostOp} (t : Turn) (hf : s.fault = none)
    (ht : s.todo = waitOf k :: more) :
    step (phaseEffect k t s) =
      .next { phaseEffect k t s with todo := more, result := .byte (phaseEffect k t s).cr.toByte } := by
  obtain ⟨hphase, hfault, htodo⟩ := phaseEffect_frame k t s
  cases k with
  | stop silent => exact step_of_waitSto (hfault.trans hf) hphase (htodo.trans ht) rfl
  | start | rstart | sla _ | dtx _ | drx _ => exact step_of_waitInt (hfault.trans hf) hphase (htodo.trans ht) rfl

/-- In `s` the phase `k` is in flight, HOST waits for it with `more` to do after the wait, and ENV's turns are those of
the round `r`, then `rest`. -/
structure AwaitsRound (s : State) (k : Phase) (r : Round) (more : List HostOp) (rest : List Turn) : Prop where
  unfaulted : s.fault = none
  inFlight : s.phase = some k
  waiting : Waiting (waitOf k) s.cr
  todo : s.todo = waitOf k :: more
  turns : s.turns = scriptTurns [r] ++ rest
  ok : roundOk r = true

theorem roundOk_iff (r : Round) :
    roundOk r = true ↔ (∀ w ∈ r.waits, grants w = false) ∧ r.last.seqFirst = true ∧ r.last.permits = true := by
  rw [roundOk, Bool.and_eq_true, List.all_eq_true, grants, Bool.and_eq_true]
  simp only [Bool.not_eq_true']

theorem scriptTurns_singleton_append (r : Round) (rest : List Turn) :
    scriptTurns [r] ++ rest = r.waits ++ r.last :: rest := by
  simp [scriptTurns]

/-- A turn that grants completes the phase in flight. -/
theorem step_of_grants {s : State} {k : Phase} {w : Turn} {rest : List Turn} (hf : s.fault = none)
    (hp : s.phase = some k) (hturns : s.turns = w :: rest) (hseq : w.seqFirst = true) (hpermits : w.permits = true) :
    step s = .next (phaseEffect k w s.nextTurn) := by
  obtain rfl : s.turn k = w := turn_of_cons k hturns
  exact (step_of_seqTurn hf hp hseq).trans (exec_phaseInstr_of_permits hf hp hpermits)

/-- `n` turns have been used up, and `rest` is left. -/
def State.afterTurns (n : Nat) (rest : List Turn) (s : State) : State :=
  { s with turns := rest, draws := s.draws + n }

/-- A round: the turns that do not complete the phase, the turn that does, and the read that ends HOST's wait. -/
theorem runSteps_of_round {s : State} {k : Phase} {r : Round} {more : List HostOp} {rest : List Turn}
    (h : AwaitsRound s k r more rest) :
    ∃ v, runSteps (r.waits.length + 2) s =
      .next { phaseEffect k r.last (s.afterTurns (r.waits.length + 1) rest) with todo := more, result := v } := by
  obtain ⟨hf, hp, hw, ht, hturns, hok⟩ := h
  obtain ⟨hwaits, hseq, hpermits⟩ := (roundOk_iff r).mp hok
  rw [scriptTurns_singleton_append] at hturns
  obtain ⟨u, hrun⟩ := busyWaitGoesOnForever s k _ more r.waits (r.last :: rest) hf hp hw ht hturns hwaits
  refine ⟨.byte (phaseEffect k r.last (s.afterTurns (r.waits.length + 1) rest)).cr.toByte,
    (runSteps_add _ 2 hrun).trans ?_⟩
  refine runSteps_of_step (step_of_grants hf hp rfl hseq hpermits) ?_
  refine runSteps_of_step (step_of_completed r.last hf ht) ?_
  have hresult := phaseEffect_result k r.last (s.afterTurns (r.waits.length + 1) rest) u
  exact congrArg (fun t : State => Host.Outcome.next { t with todo := more, result := .byte t.cr.toByte }) hresult

/-- A round of a primitive that returns nothing. -/
theorem runSteps_of_round_retUnit {s : State} {k : Phase} {r : Round} {more : List HostOp} {rest : List Turn}
    (h : AwaitsRound s k r (.retUnit :: more) rest) :
    runSteps (r.waits.length + 3) s =
      .next { phaseEffect k r.last (s.afterTurns (r.waits.length + 1) rest) with todo := more, result := .unit } := by
  obtain ⟨v, hrun⟩ := runSteps_of_round h
  obtain ⟨hphase, hfault, -⟩ := phaseEffect_frame k r.last (s.afterTurns (r.waits.length + 1) rest)
  refine (runSteps_add _ 1 hrun).trans ?_
  exact runSteps_of_step (step_of_retUnit (hfault.trans h.unfaulted) hphase rfl) rfl

end Sys2Proof.Machine
end

section
/-! The primitives, each from its call to its return, over any number of polls (R151, R152, R154 to R156). -/

namespace Sys2Proof.Machine

/-- A write of CMD_START to CR launches the phase that txn selects (R107). -/
theorem exec_wrCr_start {s : State} {k : Phase} (hf : s.fault = none) (hp : s.phase = none)
    (hk : startPhase s.txn = some k) : exec (.wrCr 0xA4) s = .next (s.launch k ⟨false, false, true, false, true⟩) :=
  (exec_wrCr_of_none hf 0xA4).trans (writeCommand_start_of_some 0xA4 hp hk)

theorem exec_wrCr_stop {s : State} (hf : s.fault = none) (hp : s.phase = none) :
    exec (.wrCr 0x94) s = .next ({ s with txn := .stopped }.launch (.stop (stopSilent s.txn))
      ⟨false, false, false, true, true⟩) :=
  (exec_wrCr_of_none hf 0x94).trans (writeCommand_stop 0x94 hp)

/-- A continue command launches the phase that txn selects, with ACKEN as bit 6 says (R73, R107). -/
theorem exec_wrCr_cont {s : State} {k : Phase} {acken : Bool} (hf : s.fault = none) (hp : s.phase = none)
    (hk : contPhase s.txn s.dr acken = some k) :
    exec (.wrCr (if acken then 0xC4 else 0x84)) s = .next (s.launch k ⟨false, acken, false, false, true⟩) := by
  cases acken with
  | false => exact (exec_wrCr_of_none hf 0x84).trans (writeCommand_cont_of_some 0x84 hp (.inl rfl) hk)
  | true => exact (exec_wrCr_of_none hf 0xC4).trans (writeCommand_cont_of_some 0xC4 hp (.inr rfl) hk)

/-- Outside Stopped and DataPhase(R, ACK), CMD_START launches a START or a repeated START by bus ownership (R79). -/
theorem startPhase_eq {txn : Txn} (hs : txn ≠ .stopped) (hd : txn ≠ .dataPhase .r .ack) :
    startPhase txn = some (if txn = .idle ∨ txn = .lost then .start else .rstart) := by
  split
  case isTrue h => exact (startPhase_eq_start_iff txn).mpr h
  case isFalse h =>
    refine startPhase_of_midTransaction ?_ hd
    cases txn with
    | idle | lost => simp at h
    | stopped => exact absurd rfl hs
    | started | addrSent _ _ | dataPhase _ _ => rfl

/-- Settles O36: the call, the launch of the phase txn selects, its round, and the return. -/
theorem startRuns : Obligations.StartRuns := by
  intro s more r rest hs hf hp hi hd ht hturns hok
  obtain ⟨hstopped, -, -, -⟩ := (inv_iff_of_rest hp).mp hs
  have hk := startPhase_eq hstopped hd
  refine runSteps_of_step (step_of_run hf hp ht rfl (exec_start_of_initialized hf hi)) ?_
  refine runSteps_of_step (step_of_run hf hp rfl rfl (exec_wrCr_start hf hp hk)) ?_
  refine Eq.trans (runSteps_of_round_retUnit (k := if s.txn = .idle ∨ s.txn = .lost then .start else .rstart)
    (more := more) (rest := rest) ?round) ?done
  case round => exact ⟨hf, rfl, .inl ⟨by split <;> rfl, rfl⟩, by split <;> rfl, hturns, hok⟩
  case done => rw [hp]; split <;> rfl

/-- Settles O37: the call, the launch, its round, and the return; the STOP is on the bus by txn at the launch. -/
theorem stopRuns : Obligations.StopRuns := by
  intro s more r rest hf hp hi ht hturns hok
  refine runSteps_of_step (step_of_run hf hp ht rfl (exec_stop_of_initialized hf hi)) ?_
  refine runSteps_of_step (step_of_run hf hp rfl rfl (exec_wrCr_stop hf hp)) ?_
  refine Eq.trans (runSteps_of_round_retUnit (k := .stop (stopSilent s.txn)) (more := more) (rest := rest) ?round) ?done
  case round => exact ⟨hf, rfl, .inr ⟨rfl, rfl⟩, rfl, hturns, hok⟩
  case done =>
    rw [hp]
    by_cases h : s.txn = .idle ∨ s.txn = .lost
    · rw [if_pos h, List.append_nil, (stopSilent_iff _).mpr h]
      rfl
    · rw [if_neg h, Bool.eq_false_iff.mpr (mt (stopSilent_iff _).mp h)]
      rfl

/-- A byte is put in DR and sent by the phase `k` that txn selects: two writes, a round, and the return. The event `e`
fixes the code and txn, and DR holds the byte unless arbitration was lost (R154, R155, R138). -/
theorem runSteps_of_send {s : State} {k : Phase} {b : Byte} {e : Event} {answer : Reply} {r : Round}
    {rest : List Turn} (hf : s.fault = none) (hp : s.phase = none) (hi : s.cr.int = true)
    (hk : contPhase s.txn b false = some k) (hwait : waitOf k = .waitInt)
    (heffect : phaseEffect k r.last = State.completeSent e answer)
    (hturns : s.turns = scriptTurns [r] ++ rest) (hok : roundOk r = true) :
    ∃ (d : Byte) (n : Nat), (answer ≠ .lost → d = b) ∧
      runSteps (r.waits.length + 5) (s.push [.run (.wrDr b), .run (.wrCr 0x84), .waitInt, .retUnit]) = .next { s with
        cr := ⟨true, false, false, false, true⟩, sr := { s.sr with code := statusCode (eventCode e) }, dr := d,
        txn := eventTxn e, trace := s.trace ++ [e], result := .unit, turns := rest, draws := n } := by
  refine ⟨if answer = .lost then Config.freeByte (s.draws + (r.waits.length + 1)) else b,
    if answer = .lost then s.draws + (r.waits.length + 1) + 1 else s.draws + (r.waits.length + 1),
    fun h => if_neg h, ?_⟩
  refine runSteps_of_step (step_of_run hf hp rfl rfl (exec_wrDr_of_flagSet b hf hp hi)) ?_
  refine runSteps_of_step (step_of_run hf hp rfl rfl (exec_wrCr_cont (acken := false) hf hp hk)) ?_
  refine Eq.trans (runSteps_of_round_retUnit (k := k) (more := s.todo) (rest := rest) ?round) ?done
  case round => exact ⟨hf, rfl, .inl ⟨hwait, rfl⟩, by rw [hwait]; rfl, hturns, hok⟩
  case done =>
    rw [heffect, hp]
    rfl

/-- Settles O39: the call, then the frame is sent; code and txn are those of ENV's answer in the frame's direction. -/
theorem transmitAddressRuns : Obligations.TransmitAddressRuns := by
  intro s raw frame dir more r rest hs hf hp hi htxn ht hturns hok hframe
  obtain ⟨-, -, hint, -⟩ := (inv_iff_of_rest hp).mp hs
  have hflag : s.cr.int = true := by simpa [htxn] using hint
  have hk : contPhase s.txn (addressFrame raw dir) false = some (.sla (addressFrame raw dir)) := by rw [htxn]; rfl
  obtain ⟨d, n, hd, hrun⟩ := runSteps_of_send (s := { s with todo := more }) hf hp hflag hk rfl rfl hturns hok
  obtain rfl : frame = addressFrame raw dir := by rw [hframe]; cases dir <;> rfl
  refine ⟨d, n, hd, ?_⟩
  refine runSteps_of_step (step_of_run hf hp ht rfl (exec_transmitAddress_of_started hf hi htxn)) ?_
  refine Eq.trans hrun ?_
  cases dir with
  | w =>
    have hb : (addressFrame raw .w).bit 0 = false := by simpa using addressFrame_bit0 raw .w
    cases r.last.addrReply <;> simp only [eventCode, eventTxn, frameDir, hb] <;> rfl
  | r =>
    have hb : (addressFrame raw .r).bit 0 = true := (addressFrame_bit0 raw .r).mpr rfl
    cases r.last.addrReply <;> simp only [eventCode, eventTxn, frameDir, hb] <;> rfl

/-- Settles O40: the call, then the byte is sent; code and txn are those of ENV's answer. -/
theorem transmitByteRuns : Obligations.TransmitByteRuns := by
  intro s data more r rest hs hf hp hi htxn ht hturns hok
  obtain ⟨-, -, hint, -⟩ := (inv_iff_of_rest hp).mp hs
  have hmay : mayTransmit s.txn = true := (mayTransmit_iff _).mpr htxn
  have hidle : s.txn ≠ .idle := fun h => by rw [h] at hmay; cases hmay
  have hflag : s.cr.int = true := by simpa [hidle] using hint
  have hk : contPhase s.txn data false = some (.dtx data) := (contPhase_eq_dtx_iff _ _ _ _).mpr ⟨hmay, rfl⟩
  obtain ⟨d, n, hd, hrun⟩ := runSteps_of_send (s := { s with todo := more }) hf hp hflag hk rfl rfl hturns hok
  refine ⟨d, n, hd, ?_⟩
  refine runSteps_of_step (step_of_run hf hp ht rfl (exec_transmitByte_of_mayTransmit hf hi hmay)) ?_
  refine Eq.trans hrun ?_
  cases r.last.dataReply <;> rfl

/-- Settles O41: the call, the launch with the answer asked for, its round, and the read of DR. -/
theorem receiveByteRuns : Obligations.ReceiveByteRuns := by
  intro s acken more r rest hf hp hi htxn ht hturns hok
  have hmay : mayReceive s.txn = true := (mayReceive_iff _).mpr htxn
  have hk : contPhase s.txn s.dr acken = some (.drx acken) := (contPhase_eq_drx_iff _ _ _ _).mpr ⟨rfl, hmay⟩
  refine runSteps_of_step (step_of_run hf hp ht rfl (exec_receiveByte_of_mayReceive hf hi hmay)) ?_
  refine runSteps_of_step (step_of_run hf hp rfl rfl (exec_wrCr_cont hf hp hk)) ?_
  obtain ⟨v, hrun⟩ := runSteps_of_round (s := { s with todo := .waitInt :: .run .rdDr :: more }.launch (.drx acken)
    ⟨false, acken, false, false, true⟩) ⟨hf, rfl, .inl ⟨rfl, rfl⟩, rfl, hturns, hok⟩
  refine (runSteps_add _ 1 hrun).trans ?_
  refine runSteps_of_step (step_of_run hf rfl rfl rfl (exec_rdDr_of_rest hf rfl)) ?_
  rw [hp]
  cases acken with
  | true => rfl
  | false =>
    rw [phaseEffect]
    cases r.last.readLost <;> rfl

end Sys2Proof.Machine
end

section
/-! The status decoder: which masked values it recognizes, and the digits of the ones it does not (R170, R171). -/

namespace Sys2Proof.Machine

/-- describe is total and changes only what HOST gets back (R170, R171). -/
theorem exec_describe {s : State} (hf : s.fault = none) (code : Byte) :
    exec (.describe code) s = .next { s with result := .text (describeText code) } :=
  unlessFaulted_of_none hf _

/-! ### Recognition -/

/-- The recognized codes have distinct values, so the search finds the code whose value it is given (R80). -/
theorem recognize_code8 {k : StatusCode} (hk : k ∈ recognizedCodes) : recognize (code8 (statusCode k)) = some k := by
  revert k
  decide

/-- The recognized values lie between 0x08 and 0x58 (R80). -/
theorem code8_mem_range {k : StatusCode} (hk : k ∈ recognizedCodes) :
    code8 (statusCode k) ≠ 0x00 ∧ code8 (statusCode k) < 0x60 := by
  revert k
  decide

/-- A value outside the range of the recognized ones is none of them (R171). -/
theorem recognize_eq_none {c : Byte} (hc : c = 0x00 ∨ 0x60 ≤ c) : recognize c = none := by
  refine List.find?_eq_none.mpr fun k hk heq => ?_
  obtain rfl : code8 (statusCode k) = c := eq_of_beq heq
  obtain ⟨hpos, hlt⟩ := code8_mem_range hk
  exact hc.elim hpos (BitVec.not_le.mpr hlt)

theorem describeText_of_recognized {code : Byte} {k : StatusCode} (hk : k ∈ recognizedCodes)
    (hc : code &&& statusMask = code8 (statusCode k)) : describeText code = phaseName k := by
  rw [describeText, hc, recognize_code8 hk]

theorem describeText_of_unrecognized {code : Byte} (hc : code &&& statusMask = 0x00 ∨ 0x60 ≤ code &&& statusMask) :
    describeText code = unknownFmt (code &&& statusMask) := by
  rw [describeText, recognize_eq_none hc]

/-! ### The digits of the unknown message -/

/-- The sixteen upper-case digits, lowest first. -/
def hexDigits : List String :=
  ["0", "1", "2", "3", "4", "5", "6", "7", "8", "9", "A", "B", "C", "D", "E", "F"]

theorem hexDigit_eq_getD {n : Nat} (hn : n < 16) : hexDigit n = hexDigits.getD n "" := by
  interval_cases n <;> rfl

/-- Of the low digit's four bits the mask leaves bit 3 only. -/
theorem masked_toNat_mod (code : Byte) :
    (code &&& statusMask).toNat % 16 = if (code &&& statusMask).bit 3 then 8 else 0 := by
  revert code
  decide

/-- The low digit of a masked value is 8 or 0 (R170). -/
theorem hexDigit_masked_mod (code : Byte) :
    hexDigit ((code &&& statusMask).toNat % 16) = if (code &&& statusMask).bit 3 then "8" else "0" := by
  rw [masked_toNat_mod]
  cases (code &&& statusMask).bit 3 <;> rfl

theorem unknownFmt_masked (code : Byte) :
    unknownFmt (code &&& statusMask) =
      "unknown, raw=0x" ++ hexDigits.getD ((code &&& statusMask).toNat / 16) "" ++
        (if (code &&& statusMask).bit 3 then "8" else "0") := by
  have hhigh : (code &&& statusMask).toNat / 16 < 16 := Nat.div_lt_of_lt_mul (code &&& statusMask).isLt
  rw [← hexDigit_eq_getD hhigh, ← hexDigit_masked_mod]
  rfl

/-- Settles O34: the eleven pairs are the recognized codes with their names; the other values take the last arm. -/
theorem describeNamesEveryCode : Obligations.DescribeNamesEveryCode := by
  intro code s hf
  refine ⟨describeText code, exec_describe hf code, ?recognized, ?unknown⟩
  case recognized =>
    intro p hp hc
    obtain ⟨k, hk, rfl⟩ := List.mem_map.mp
      (show p ∈ recognizedCodes.map fun k => (code8 (statusCode k), phaseName k) from hp)
    exact describeText_of_recognized hk hc
  case unknown =>
    intro hc
    exact (describeText_of_unrecognized hc).trans (unknownFmt_masked code)

end Sys2Proof.Machine
end

section
/-! The calls of the EEPROM sequences, and HOST's bookkeeping pieces that only they use (R176 to R180, log 7). -/

namespace Sys2Proof.Machine

/-! ### The calls -/

/-- The transmissions of some bytes in order. -/
def transmitOps (bytes : List Byte) : List HostOp := bytes.map fun b => .run (.transmitByte b)

/-- The work of a write: the device addressed, the bytes, a STOP, and the completion poll (R177, R179). -/
def writeOps (bytes : List Byte) : List HostOp :=
  addressDevice .w ++ transmitOps bytes ++ [.run .stop, .run .waitUntilWriteComplete]

/-- The work of a read: the device addressed, the word address, the device addressed for reading, `count` receptions, a
STOP, and the return `ret` (R176, R180). -/
def readOps (a : Byte) (count : Nat) (ret : HostOp) : List HostOp :=
  addressDevice .w ++ [.run (.transmitByte a)] ++ addressDevice .r ++ receiveOps count ++ [.run .stop, ret]

section
variable {s : State} (hf : s.fault = none)
include hf

theorem beginSequence_of_none (ops : List HostOp) :
    beginSequence ops s = .next ({ s with out := [] }.push ops) :=
  unlessFaulted_of_none hf _

theorem exec_readByte (a : Byte) :
    exec (.readByte a) s = .next ({ s with out := [] }.push (readOps a 1 .retByte)) :=
  beginSequence_of_none hf _

theorem exec_writeByte (a d : Byte) :
    exec (.writeByte a d) s = .next ({ s with out := [] }.push (writeOps [a, d])) :=
  beginSequence_of_none hf _

theorem exec_waitUntilWriteComplete : exec .waitUntilWriteComplete s = .next (s.push (pollOps ++ [.retUnit])) :=
  unlessFaulted_of_none hf _

/-- A length from 1 to PAGE_SIZE passes the check of R179. -/
theorem exec_writePage (a : Byte) {data : List Byte} (hne : data ≠ []) (hlen : data.length ≤ Config.pageSize) :
    exec (.writePage a data) s = .next ({ s with out := [] }.push (writeOps (a :: data))) := by
  have hpass : ¬(data.length = 0 ∨ Config.pageSize < data.length) := by
    rw [List.length_eq_zero_iff]
    exact not_or.mpr ⟨hne, Nat.not_lt.mpr hlen⟩
  exact (if_neg hpass).trans (beginSequence_of_none hf _)

/-- A positive count passes the check of R180. -/
theorem exec_sequentialRead (a : Byte) {count : Nat} (hpos : count ≠ 0) :
    exec (.sequentialRead a count) s = .next ({ s with out := [] }.push (readOps a count .retBytes)) :=
  (if_neg hpos).trans (beginSequence_of_none hf _)

end

/-- Of `n + 1` receptions the first `n` are answered ACK and the last NAK (R180). -/
theorem receiveOps_succ (n : Nat) :
    receiveOps (n + 1) = (List.replicate n [HostOp.run (.receiveByte true), .keepByte]).flatten ++
      [.run (.receiveByte false), .keepByte] := by
  induction n with
  | zero => rfl
  | succ n ih => rw [receiveOps, ih, List.replicate_succ, List.flatten_cons, List.append_assoc]

/-- Settles O32: by the call of each sequence, with the receptions of a sequential read counted out. -/
theorem sequencesExpand : Obligations.SequencesExpand := by
  intro s hf
  refine ⟨exec_readByte hf, exec_writeByte hf, exec_waitUntilWriteComplete hf,
    fun a data hne hlen => exec_writePage hf a hne hlen, fun a n => ?sequentialRead⟩
  case sequentialRead =>
    rw [exec_sequentialRead hf a n.succ_ne_zero, readOps, receiveOps_succ]
    simp only [State.push, List.append_assoc]
    rfl

/-! ### HOST's bookkeeping -/

section
variable {s : State} {more : List HostOp} (hf : s.fault = none) (hp : s.phase = none)
include hf hp

theorem step_of_keepByte (ht : s.todo = .keepByte :: more) :
    step s = .next { s with todo := more, out := s.out ++ valueBytes s.result } := by
  rw [step_idle hf hp, hostMove, ht]
  rfl

theorem step_of_retByte (ht : s.todo = .retByte :: more) :
    step s = .next { s with todo := more, result := keptByte s.out } := by
  rw [step_idle hf hp, hostMove, ht]
  rfl

theorem step_of_retBytes (ht : s.todo = .retBytes :: more) :
    step s = .next { s with todo := more, result := .bytes s.out } := by
  rw [step_idle hf hp, hostMove, ht]
  rfl

/-- The poll's test ends the poll at the status SLA+W ACK, and else HOST makes another attempt (R178). -/
theorem step_of_pollTest (ht : s.todo = .pollTest :: more) :
    step s = .next { s with
      todo := if s.result = .byte (code8 (statusCode .slawAck)) then more else pollOps ++ more } := by
  rw [step_idle hf hp, hostMove, ht]
  dsimp only [execPollTest]
  split <;> rfl

end

end Sys2Proof.Machine
end

section
/-! HOST at rest with a script to run: the primitives and the bookkeeping pieces, each as the move of such a state to
the next one (R151 to R156). -/

namespace Sys2Proof.Machine

/-! ### Runs of any length -/

/-- Some run of `s` leads to a state in which `P` holds. -/
def Reaches (s : State) (P : State → Prop) : Prop := ∃ n t, runSteps n s = .next t ∧ P t

theorem reaches_here {s : State} {P : State → Prop} (h : P s) : Reaches s P := ⟨0, s, rfl, h⟩

theorem reaches_of_runSteps {n : Nat} {s t : State} {P : State → Prop} (hrun : runSteps n s = .next t)
    (h : Reaches t P) : Reaches s P := by
  obtain ⟨m, u, hm, hu⟩ := h
  exact ⟨n + m, u, (runSteps_add n m hrun).trans hm, hu⟩

theorem reaches_of_step {s t : State} {P : State → Prop} (hstep : step s = .next t) (h : Reaches t P) : Reaches s P :=
  reaches_of_runSteps (n := 1) (runSteps_of_step hstep rfl) h

/-! ### Scripts -/

/-- `s` with the work `ops` to do, and as ENV's turns those of the rounds `rs`, then `rest`. -/
def State.script (ops : List HostOp) (rs : List Round) (rest : List Turn) (s : State) : State :=
  { s with todo := ops, turns := scriptTurns rs ++ rest }

theorem script_eq_self {s : State} {ops : List HostOp} {rs : List Round} {rest : List Turn} (ht : s.todo = ops)
    (hturns : s.turns = scriptTurns rs ++ rest) : s.script ops rs rest = s := by
  rw [State.script, ← ht, ← hturns]

theorem reaches_of_script {s : State} {ops : List HostOp} {rs : List Round} {rest : List Turn} {P : State → Prop}
    (ht : s.todo = ops) (hturns : s.turns = scriptTurns rs ++ rest) (h : Reaches (s.script ops rs rest) P) :
    Reaches s P := by
  rwa [script_eq_self ht hturns] at h

theorem scriptTurns_cons_append (r : Round) (rs : List Round) (rest : List Turn) :
    scriptTurns (r :: rs) ++ rest = scriptTurns [r] ++ (scriptTurns rs ++ rest) := by
  simp [scriptTurns]

/-! ### HOST at rest -/

/-- HOST can call a primitive: no fault, no phase in flight, the block initialized, and the invariants. -/
structure Ready (s : State) : Prop where
  inv : s.Inv
  unfaulted : s.fault = none
  atRest : s.phase = none
  initialized : s.initialized = true

/-- HOST's variables and ENV's turns do not matter. -/
theorem Ready.of_block_eq {s t : State} (hs : Ready s) (h : t.block = s.block) : Ready t where
  inv := .of_block_eq h hs.inv
  unfaulted := (congrArg State.fault h :).trans hs.unfaulted
  atRest := (State.phase_of_block_eq h).trans hs.atRest
  initialized := (congrArg State.initialized h :).trans hs.initialized

/-- INT is set except in Idle (R43). -/
theorem Ready.int_eq_true {s : State} (hs : Ready s) (ht : s.txn ≠ .idle) : s.cr.int = true := by
  obtain ⟨-, -, hint, -⟩ := (inv_iff_of_rest hs.atRest).mp hs.inv
  simpa [ht] using hint

/-! ### What a primitive leaves behind -/

/-- CR after the primitive whose phase gave the event: STA as its command set it, ACKEN where it answered ACK. -/
def eventCr : Event → Cr
  | .start => ⟨true, false, true, false, true⟩
  | .rstart => ⟨true, false, true, false, true⟩
  | .addr _ _ => ⟨true, false, false, false, true⟩
  | .dtx _ _ => ⟨true, false, false, false, true⟩
  | .drx _ reply => ⟨true, reply == .ack, false, false, true⟩
  | .stop => ⟨false, false, false, false, true⟩

/-- What the primitive whose phase gave the event returns. -/
def eventResult : Event → HostValue
  | .drx b _ => .byte b
  | .start => .unit
  | .rstart => .unit
  | .addr _ _ => .unit
  | .dtx _ _ => .unit
  | .stop => .unit

/-- `s` after primitives that gave the events `es`, the last of them `e`; DR is then `d`, and the draw counter `n`. -/
def State.afterEvents (es : List Event) (e : Event) (d : Byte) (n : Nat) (s : State) : State :=
  { s with
    cr := eventCr e, sr := { s.sr with code := statusCode (eventCode e) }, dr := d, txn := eventTxn e,
    trace := s.trace ++ es, result := eventResult e, draws := n }

/-- The sequence has kept the bytes `bs` (R176, R180). -/
def State.keep (bs : List Byte) (s : State) : State := { s with out := s.out ++ bs }

section
variable (es es' : List Event) (e e' : Event) (d d' : Byte) (n n' : Nat) (bs bs' : List Byte) (v : HostValue)
  (s : State)

@[simp] theorem afterEvents_txn : (s.afterEvents es e d n).txn = eventTxn e := rfl

/-- Of two groups of events the later one fixes the registers. -/
@[simp] theorem afterEvents_afterEvents :
    (s.afterEvents es e d n).afterEvents es' e' d' n' = s.afterEvents (es ++ es') e' d' n' := by
  simp only [State.afterEvents, List.append_assoc]

@[simp] theorem keep_keep : (s.keep bs).keep bs' = s.keep (bs ++ bs') := by
  simp only [State.keep, List.append_assoc]

@[simp] theorem keep_afterEvents : (s.keep bs).afterEvents es e d n = (s.afterEvents es e d n).keep bs := rfl

@[simp] theorem returns_afterEvents : (s.returns v).afterEvents es e d n = s.afterEvents es e d n := rfl

end

/-- A completion's code is the one that goes with its txn, for a STOP too (R138). -/
theorem codeTxn_of_event (e : Event) : codeTxn (statusCode (eventCode e)) = some (eventTxn e) := by
  cases e with
  | start => exact codeTxn_eventCode .start
  | rstart => exact codeTxn_eventCode .rstart
  | addr frame r => exact codeTxn_eventCode (.addr frame r)
  | dtx byte r => exact codeTxn_eventCode (.dtx byte r)
  | stop => rfl
  | drx b r =>
    cases r with
    | ack => exact codeTxn_eventCode (.drxAck b)
    | nak => exact codeTxn_eventCode (.drxNak b)
    | lost => exact codeTxn_eventCode (.drxLost b)

/-- After a phase INT is set, except after a STOP, the one phase that leaves Idle (R134). -/
theorem eventCr_int_eq_false_iff (e : Event) : (eventCr e).int = false ↔ eventTxn e = .idle := by
  cases e with
  | start | rstart | stop => simp [eventCr, eventTxn]
  | addr _ r | dtx _ r | drx _ r => cases r <;> simp [eventCr, eventTxn]

theorem Ready.afterEvents {s : State} (hs : Ready s) (es : List Event) (e : Event) (d : Byte) (n : Nat) :
    Ready (s.afterEvents es e d n) where
  inv := by
    rw [inv_iff_of_rest (s := s.afterEvents es e d n) hs.atRest]
    have hsto : (eventCr e).sto = false := by cases e <;> rfl
    exact ⟨eventTxn_ne_stopped e, hsto, eventCr_int_eq_false_iff e, codeTxn_of_event e⟩
  unfaulted := hs.unfaulted
  atRest := hs.atRest
  initialized := hs.initialized

theorem Ready.keep {s : State} (hs : Ready s) (bs : List Byte) : Ready (s.keep bs) := hs.of_block_eq rfl

theorem Ready.returns {s : State} (hs : Ready s) (v : HostValue) : Ready (s.returns v) := hs.of_block_eq rfl

/-! ### The pieces of a script

Each piece leads from a script that begins with it to what is left of the script after it. -/

section
variable {s : State} {more : List HostOp} {r : Round} {rs : List Round} {rest : List Turn} {P : State → Prop}
  (hs : Ready s)
include hs

/-- A call whose operation leads to `t`. -/
theorem reaches_of_exec {i : Instr} {t : State} (hw : i.wf = true) (hx : exec i (s.script more rs rest) = .next t)
    (h : Reaches t P) : Reaches (s.script (.run i :: more) rs rest) P :=
  reaches_of_step (step_of_run (s := s.script (.run i :: more) rs rest) hs.unfaulted hs.atRest rfl hw hx) h

theorem reaches_start (hd : s.txn ≠ .dataPhase .r .ack) (hok : roundOk r = true)
    (h : ∀ n, Reaches ((s.afterEvents [startEvent s.txn] (startEvent s.txn) s.dr n).script more rs rest) P) :
    Reaches (s.script (.run .start :: more) (r :: rs) rest) P := by
  have hrun := startRuns (s.script (.run .start :: more) (r :: rs) rest) more r (scriptTurns rs ++ rest)
    (hs.of_block_eq rfl).inv hs.unfaulted hs.atRest hs.initialized hd rfl (scriptTurns_cons_append r rs rest) hok
  refine reaches_of_runSteps (hrun.trans ?_) (h (s.draws + (r.waits.length + 1)))
  by_cases hc : s.txn = .idle ∨ s.txn = .lost <;>
    simp only [State.script, State.afterEvents, startEvent, hc, if_true, if_false] <;> rfl

/-- A call that sends the byte `b` in the phase `k`, with the event `e`. -/
theorem reaches_send {i : Instr} {k : Phase} {b : Byte} {e : Event} {answer : Reply} (hw : i.wf = true)
    (hx : exec i (s.script more (r :: rs) rest) =
      .next ((s.script more (r :: rs) rest).push [.run (.wrDr b), .run (.wrCr 0x84), .waitInt, .retUnit]))
    (hidle : s.txn ≠ .idle) (hk : contPhase s.txn b false = some k) (hwait : waitOf k = .waitInt)
    (heffect : phaseEffect k r.last = State.completeSent e answer)
    (he : eventCr e = ⟨true, false, false, false, true⟩ ∧ eventResult e = .unit) (hok : roundOk r = true)
    (h : ∀ d n, (answer ≠ .lost → d = b) → Reaches ((s.afterEvents [e] e d n).script more rs rest) P) :
    Reaches (s.script (.run i :: more) (r :: rs) rest) P := by
  obtain ⟨hcr, hresult⟩ := he
  obtain ⟨d, n, hd, hrun⟩ := runSteps_of_send (s := s.script more (r :: rs) rest) hs.unfaulted hs.atRest
    (hs.int_eq_true hidle) hk hwait heffect (scriptTurns_cons_append r rs rest) hok
  refine reaches_of_exec hs hw hx (reaches_of_runSteps (hrun.trans ?_) (h d n hd))
  rw [State.afterEvents, hcr, hresult]
  rfl

theorem reaches_transmitAddress {raw : Byte} {dir : Dir} (ht : s.txn = .started) (hok : roundOk r = true)
    (h : ∀ d n, (r.last.addrReply ≠ .lost → d = addressFrame raw dir) →
      Reaches ((s.afterEvents [.addr (addressFrame raw dir) r.last.addrReply]
        (.addr (addressFrame raw dir) r.last.addrReply) d n).script more rs rest) P) :
    Reaches (s.script (.run (.transmitAddress raw dir) :: more) (r :: rs) rest) P := by
  have hk : contPhase s.txn (addressFrame raw dir) false = some (.sla (addressFrame raw dir)) := by rw [ht]; rfl
  exact reaches_send hs rfl (exec_transmitAddress_of_started hs.unfaulted hs.initialized ht) (by rw [ht]; decide) hk rfl
    rfl ⟨rfl, rfl⟩ hok h

theorem reaches_transmitByte {b : Byte} (ht : mayTransmit s.txn = true) (hok : roundOk r = true)
    (h : ∀ d n,
      Reaches ((s.afterEvents [.dtx b r.last.dataReply] (.dtx b r.last.dataReply) d n).script more rs rest) P) :
    Reaches (s.script (.run (.transmitByte b) :: more) (r :: rs) rest) P := by
  have hk : contPhase s.txn b false = some (.dtx b) := (contPhase_eq_dtx_iff _ _ _ _).mpr ⟨ht, rfl⟩
  have hidle : s.txn ≠ .idle := fun hc => by rw [hc] at ht; cases ht
  exact reaches_send hs rfl (exec_transmitByte_of_mayTransmit hs.unfaulted hs.initialized ht) hidle hk rfl rfl
    ⟨rfl, rfl⟩ hok fun d n _ => h d n

theorem reaches_receiveByte {acken : Bool} (ht : mayReceive s.txn = true) (hok : roundOk r = true)
    (h : ∀ n, Reaches ((s.afterEvents [.drx r.last.readByte (receiveReply acken r.last.readLost)]
      (.drx r.last.readByte (receiveReply acken r.last.readLost)) r.last.readByte n).script more rs rest) P) :
    Reaches (s.script (.run (.receiveByte acken) :: more) (r :: rs) rest) P := by
  have hrun := receiveByteRuns (s.script (.run (.receiveByte acken) :: more) (r :: rs) rest) acken more r
    (scriptTurns rs ++ rest) hs.unfaulted hs.atRest hs.initialized ((mayReceive_iff _).mp ht) rfl
    (scriptTurns_cons_append r rs rest) hok
  refine reaches_of_runSteps (hrun.trans ?_) (h (s.draws + (r.waits.length + 1)))
  dsimp only [State.script, State.afterEvents]
  cases acken <;> cases r.last.readLost <;> rfl

/-- In a transaction the controller has open, a STOP is on the bus (R134). -/
theorem reaches_stop (ht : midTransaction s.txn = true) (hok : roundOk r = true)
    (h : ∀ n, Reaches ((s.afterEvents [.stop] .stop s.dr n).script more rs rest) P) :
    Reaches (s.script (.run .stop :: more) (r :: rs) rest) P := by
  have hopen : ¬(s.txn = .idle ∨ s.txn = .lost) := by rintro (hc | hc) <;> rw [hc] at ht <;> cases ht
  have hrun := stopRuns (s.script (.run .stop :: more) (r :: rs) rest) more r (scriptTurns rs ++ rest) hs.unfaulted
    hs.atRest hs.initialized rfl (scriptTurns_cons_append r rs rest) hok
  refine reaches_of_runSteps (hrun.trans ?_) (h (s.draws + (r.waits.length + 1)))
  simp only [State.script, hopen, if_false]
  rfl

theorem reaches_status (h : Reaches ((s.returns (.byte (code8 s.sr.code))).script more rs rest) P) :
    Reaches (s.script (.run .status :: more) rs rest) P :=
  reaches_of_runSteps (statusRuns (s.script (.run .status :: more) rs rest) more hs.unfaulted hs.atRest rfl) h

theorem reaches_keepByte {b : Byte} (hb : s.result = .byte b) (h : Reaches ((s.keep [b]).script more rs rest) P) :
    Reaches (s.script (.keepByte :: more) rs rest) P := by
  refine reaches_of_step (step_of_keepByte (s := s.script (.keepByte :: more) rs rest) hs.unfaulted hs.atRest rfl) ?_
  simpa only [State.script, State.keep, hb, valueBytes] using h

theorem reaches_pollTest (h : Reaches
    (s.script (if s.result = .byte (code8 (statusCode .slawAck)) then more else pollOps ++ more) rs rest) P) :
    Reaches (s.script (.pollTest :: more) rs rest) P :=
  reaches_of_step (step_of_pollTest (s := s.script (.pollTest :: more) rs rest) hs.unfaulted hs.atRest rfl) h

theorem reaches_retUnit (h : Reaches ((s.returns .unit).script more rs rest) P) :
    Reaches (s.script (.retUnit :: more) rs rest) P :=
  reaches_of_step (step_of_retUnit (s := s.script (.retUnit :: more) rs rest) hs.unfaulted hs.atRest rfl) h

theorem reaches_retByte (h : Reaches ((s.returns (keptByte s.out)).script more rs rest) P) :
    Reaches (s.script (.retByte :: more) rs rest) P :=
  reaches_of_step (step_of_retByte (s := s.script (.retByte :: more) rs rest) hs.unfaulted hs.atRest rfl) h

theorem reaches_retBytes (h : Reaches ((s.returns (.bytes s.out)).script more rs rest) P) :
    Reaches (s.script (.retBytes :: more) rs rest) P :=
  reaches_of_step (step_of_retBytes (s := s.script (.retBytes :: more) rs rest) hs.unfaulted hs.atRest rfl) h

end

end Sys2Proof.Machine
end

section
/-! The transactions of the EEPROM sequences: the device addressed, the bytes of a read and of a write, and the
completion poll (R175 to R180). -/

namespace Sys2Proof.Machine

/-! ### The device addressed -/

/-- The event of the device's address frame (R175). -/
def deviceEvent (dir : Dir) (reply : Reply) : Event := .addr (addressFrame Config.deviceRawAddr dir) reply

theorem deviceEvent_w (reply : Reply) : deviceEvent .w reply = .addr 0xA0 reply := rfl

theorem eventTxn_startEvent (txn : Txn) : eventTxn (startEvent txn) = .started := by
  rw [startEvent]
  split <;> rfl

/-- The round runs, and the device answers the address sent in it. -/
def Answers (r : Round) : Prop := roundOk r = true ∧ r.last.addrReply = .ack

theorem reaches_addressDevice {s : State} {dir : Dir} {more : List HostOp} {r1 r2 : Round} {rs : List Round}
    {rest : List Turn} {P : State → Prop} (hs : Ready s) (hd : s.txn ≠ .dataPhase .r .ack) (hok1 : roundOk r1 = true)
    (hok2 : roundOk r2 = true)
    (h : ∀ d n, (r2.last.addrReply ≠ .lost → d = addressFrame Config.deviceRawAddr dir) →
      Reaches ((s.afterEvents [startEvent s.txn, deviceEvent dir r2.last.addrReply] (deviceEvent dir r2.last.addrReply)
        d n).script more rs rest) P) :
    Reaches (s.script (addressDevice dir ++ more) (r1 :: r2 :: rs) rest) P := by
  refine reaches_start hs hd hok1 fun n1 => ?_
  refine reaches_transmitAddress (hs.afterEvents _ _ _ _) (eventTxn_startEvent s.txn) hok2 fun d n hdr => ?_
  rw [afterEvents_afterEvents]
  exact h d n hdr

/-! ### The bytes of a write -/

/-- The round runs, and arbitration is not lost on the byte it transmits. -/
def Sends (r : Round) : Prop := roundOk r = true ∧ r.last.dataReply ≠ .lost

/-- The events of bytes transmitted in the rounds `rs`. -/
def sendEvents (bytes : List Byte) (rs : List Round) : List Event :=
  List.zipWith (fun b r => .dtx b r.last.dataReply) bytes rs

/-- After a transmitted byte that did not lose arbitration, ACKed or NAKed, the next one may follow (R155). -/
theorem mayTransmit_eventTxn_dtx {r : Reply} (b : Byte) (hr : r ≠ .lost) :
    mayTransmit (eventTxn (.dtx b r)) = true := by
  cases r with
  | ack | nak => rfl
  | lost => exact absurd rfl hr

theorem midTransaction_of_mayTransmit {txn : Txn} (h : mayTransmit txn = true) : midTransaction txn = true := by
  obtain rfl | rfl | rfl := (mayTransmit_iff txn).mp h <;> rfl

/-- Bytes sent in order, then the STOP, by induction on the bytes. -/
theorem reaches_transmitOps_stop {s : State} {bytes : List Byte} {more : List HostOp} {sends rs : List Round}
    {r : Round} {rest : List Turn} {P : State → Prop} (hs : Ready s) (ht : mayTransmit s.txn = true)
    (hlen : sends.length = bytes.length) (hsends : ∀ x ∈ sends, Sends x) (hok : roundOk r = true)
    (h : ∀ d n, Reaches ((s.afterEvents (sendEvents bytes sends ++ [.stop]) .stop d n).script more rs rest) P) :
    Reaches (s.script (transmitOps bytes ++ .run .stop :: more) (sends ++ r :: rs) rest) P := by
  induction bytes generalizing s sends with
  | nil =>
    obtain rfl := List.length_eq_zero_iff.mp hlen
    exact reaches_stop hs (midTransaction_of_mayTransmit ht) hok fun n => h s.dr n
  | cons b bytes ih =>
    obtain ⟨x, sends, rfl⟩ := List.exists_cons_of_length_eq_add_one hlen
    obtain ⟨⟨hx, hreply⟩, hsends⟩ := List.forall_mem_cons.mp hsends
    refine reaches_transmitByte hs ht hx fun d n => ?_
    refine ih (hs.afterEvents _ _ d n) (mayTransmit_eventTxn_dtx b hreply) (Nat.succ.inj hlen) hsends fun d' n' => ?_
    rw [afterEvents_afterEvents]
    exact h d' n'

/-! ### The bytes of a read -/

/-- The round runs, and arbitration is not lost while a NAK is sent. -/
def Receives (r : Round) : Prop := roundOk r = true ∧ r.last.readLost = false

/-- The bytes the device sends in the rounds `rs`. -/
def sentBytes (rs : List Round) : List Byte := rs.map fun r => r.last.readByte

theorem reaches_receiveByte_keepByte {s : State} {acken : Bool} {more : List HostOp} {r : Round} {rs : List Round}
    {rest : List Turn} {P : State → Prop} (hs : Ready s) (ht : mayReceive s.txn = true) (hr : Receives r)
    (h : ∀ n, Reaches (((s.afterEvents [.drx r.last.readByte (receiveReply acken false)]
      (.drx r.last.readByte (receiveReply acken false)) r.last.readByte n).keep [r.last.readByte]).script more rs
        rest) P) :
    Reaches (s.script (.run (.receiveByte acken) :: .keepByte :: more) (r :: rs) rest) P := by
  obtain ⟨hok, hlost⟩ := hr
  refine reaches_receiveByte hs ht hok fun n => ?_
  rw [hlost]
  exact reaches_keepByte (hs.afterEvents _ _ _ n) rfl (h n)

/-- Bytes received in order, all but the last answered ACK, then the STOP, by induction on the receptions. -/
theorem reaches_receiveOps_stop {s : State} {more : List HostOp} {first r : Round} {reads rs : List Round}
    {rest : List Turn} {P : State → Prop} (hs : Ready s) (ht : mayReceive s.txn = true)
    (hreads : ∀ x ∈ first :: reads, Receives x) (hok : roundOk r = true)
    (h : ∀ n, Reaches (((s.afterEvents (receiveEvents (sentBytes (first :: reads)) ++ [.stop]) .stop
      ((sentBytes (first :: reads)).getLastD 0) n).keep (sentBytes (first :: reads))).script more rs rest) P) :
    Reaches (s.script (receiveOps (first :: reads).length ++ .run .stop :: more)
      (first :: reads ++ r :: rs) rest) P := by
  induction reads generalizing s first with
  | nil =>
    obtain ⟨hfirst, -⟩ := List.forall_mem_cons.mp hreads
    refine reaches_receiveByte_keepByte hs ht hfirst fun n => ?_
    refine reaches_stop ((hs.afterEvents _ _ _ n).keep _) rfl hok fun n' => ?_
    rw [keep_afterEvents, afterEvents_afterEvents]
    exact h n'
  | cons second reads ih =>
    obtain ⟨hfirst, hreads⟩ := List.forall_mem_cons.mp hreads
    refine reaches_receiveByte_keepByte hs ht hfirst fun n => ?_
    refine ih ((hs.afterEvents _ _ _ n).keep _) rfl hreads fun n' => ?_
    rw [keep_afterEvents, afterEvents_afterEvents, keep_keep]
    exact h n'

/-! ### A read -/

/-- The events of a read of `bytes` from a state in `txn`, the word address answered `reply` (R176, R180). -/
def readEvents (txn : Txn) (a : Byte) (reply : Reply) (bytes : List Byte) : List Event :=
  [startEvent txn, .addr 0xA0 .ack, .dtx a reply, .rstart, .addr 0xA1 .ack] ++ receiveEvents bytes ++ [.stop]

theorem startEvent_of_mayTransmit {txn : Txn} (h : mayTransmit txn = true) :
    startEvent txn = .rstart ∧ txn ≠ .dataPhase .r .ack := by
  obtain rfl | rfl | rfl := (mayTransmit_iff txn).mp h <;> decide

/-- A read, up to its return: the device answers its address in both directions, and the word address, ACKed or NAKed,
does not lose arbitration. -/
theorem reaches_readOps {s : State} {a : Byte} {ret : HostOp} {more : List HostOp} {r1 r2 r3 r4 r5 r6 first : Round}
    {reads : List Round} {rest : List Turn} {P : State → Prop} (hs : Ready s) (hd : s.txn ≠ .dataPhase .r .ack)
    (hok1 : roundOk r1 = true) (hack2 : Answers r2) (hword : Sends r3) (hok4 : roundOk r4 = true) (hack5 : Answers r5)
    (hreads : ∀ x ∈ first :: reads, Receives x) (hok6 : roundOk r6 = true)
    (h : ∀ n, Reaches (((s.afterEvents (readEvents s.txn a r3.last.dataReply (sentBytes (first :: reads))) .stop
      ((sentBytes (first :: reads)).getLastD 0) n).keep (sentBytes (first :: reads))).script (ret :: more) [] rest) P) :
    Reaches (s.script (readOps a (first :: reads).length ret ++ more)
      ([r1, r2, r3, r4, r5] ++ (first :: reads) ++ [r6]) rest) P := by
  obtain ⟨hok2, hreply2⟩ := hack2
  obtain ⟨hok3, hreply⟩ := hword
  obtain ⟨hok5, hreply5⟩ := hack5
  have hmay := mayTransmit_eventTxn_dtx a hreply
  obtain ⟨hrestart, hd'⟩ := startEvent_of_mayTransmit hmay
  rw [readOps]
  simp only [List.append_assoc]
  refine reaches_addressDevice hs hd hok1 hok2 fun d n _ => ?_
  rw [hreply2]
  refine reaches_transmitByte (hs.afterEvents _ _ d n) rfl hok3 fun d n => ?_
  rw [afterEvents_afterEvents]
  refine reaches_addressDevice (hs.afterEvents _ _ d n) hd' hok4 hok5 fun d n _ => ?_
  rw [afterEvents_afterEvents, afterEvents_txn, hrestart, hreply5]
  refine reaches_receiveOps_stop (hs.afterEvents _ _ d n) rfl hreads hok6 fun n => ?_
  rw [afterEvents_afterEvents]
  exact h n

/-! ### The completion poll -/

/-- A start after an address, however it was answered, is the one the poll's trace names. -/
theorem startEvent_after_address (reply : Reply) :
    startEvent (eventTxn (.addr 0xA0 reply)) = restartEvent reply ∧
      eventTxn (.addr 0xA0 reply) ≠ .dataPhase .r .ack := by
  cases reply <;> decide

/-- Of the three codes an attempt can leave, the poll's test accepts the one of an ACK (R178). -/
theorem attempt_status_iff (reply : Reply) :
    HostValue.byte (code8 (statusCode (eventCode (.addr 0xA0 reply)))) = .byte (code8 (statusCode .slawAck)) ↔
      reply = .ack := by
  cases reply <;> decide

theorem attemptsFail_cons (p : Round × Round) (tries : List (Round × Round)) :
    attemptsFail (p :: tries) = true ↔
      (roundOk p.1 = true ∧ roundOk p.2 = true ∧ p.2.last.addrReply ≠ .ack) ∧ attemptsFail tries = true := by
  simp [attemptsFail, and_assoc]

section
variable {s : State} {more : List HostOp} {r1 r2 : Round} {tries : List (Round × Round)} {rs : List Round}
  {rest : List Turn} {P : State → Prop} (hs : Ready s) (hd : s.txn ≠ .dataPhase .r .ack)
include hs hd

/-- One attempt: the device addressed, the status read and tested. -/
theorem reaches_attempt (hok1 : roundOk r1 = true) (hok2 : roundOk r2 = true)
    (h : ∀ d n v, (r2.last.addrReply ≠ .lost → d = 0xA0) →
      Reaches (((s.afterEvents [startEvent s.txn, .addr 0xA0 r2.last.addrReply] (.addr 0xA0 r2.last.addrReply) d
        n).returns v).script (if r2.last.addrReply = .ack then more else pollOps ++ more) rs rest) P) :
    Reaches (s.script (pollOps ++ more) (r1 :: r2 :: rs) rest) P := by
  rw [pollOps, List.append_assoc]
  refine reaches_addressDevice hs hd hok1 hok2 fun d n hdr => ?_
  rw [deviceEvent_w]
  refine reaches_status (hs.afterEvents _ _ d n) (reaches_pollTest ((hs.afterEvents _ _ d n).returns _) ?_)
  simp only [State.returns_result, State.afterEvents, attempt_status_iff]
  exact h d n _ hdr

/-- The poll, by induction on its failed attempts (R178). -/
theorem reaches_poll (hfail : attemptsFail tries = true) (hok1 : roundOk r1 = true) (hack : Answers r2)
    (h : ∀ n, Reaches ((s.afterEvents (pollEvents (startEvent s.txn) (attemptReplies tries)) (.addr 0xA0 .ack) 0xA0
      n).script more rs rest) P) :
    Reaches (s.script (pollOps ++ .retUnit :: more) (attemptRounds tries ++ r1 :: r2 :: rs) rest) P := by
  induction tries generalizing s with
  | nil =>
    obtain ⟨hok2, hreply⟩ := hack
    refine reaches_attempt hs hd hok1 hok2 fun d n v hdr => ?_
    rw [hreply] at hdr ⊢
    obtain rfl := hdr (by decide)
    exact reaches_retUnit ((hs.afterEvents _ _ _ n).returns v) (h n)
  | cons p tries ih =>
    obtain ⟨⟨hp1, hp2, hne⟩, hfail⟩ := (attemptsFail_cons p tries).mp hfail
    obtain ⟨hrestart, hd'⟩ := startEvent_after_address p.2.last.addrReply
    refine reaches_attempt hs hd hp1 hp2 fun d n v _ => ?_
    rw [if_neg hne]
    refine ih ((hs.afterEvents _ _ d n).returns v) hd' hfail fun n' => ?_
    rw [returns_afterEvents, afterEvents_afterEvents, State.returns_txn, afterEvents_txn, hrestart]
    exact h n'

/-- Failed attempts alone, by induction; the last one fixes the registers. -/
theorem reaches_failedAttempts {p : Round × Round} {reply : Reply} (hfail : attemptsFail (p :: tries) = true)
    (hlast : (attemptReplies (p :: tries)).getLast? = some reply)
    (h : ∀ d n v, reply ≠ .ack → (reply ≠ .lost → d = 0xA0) →
      Reaches (((s.afterEvents (attemptEvents (startEvent s.txn) (attemptReplies (p :: tries))) (.addr 0xA0 reply) d
        n).returns v).script (pollOps ++ more) rs rest) P) :
    Reaches (s.script (pollOps ++ more) (attemptRounds (p :: tries) ++ rs) rest) P := by
  induction tries generalizing s p with
  | nil =>
    obtain ⟨⟨hp1, hp2, hne⟩, -⟩ := (attemptsFail_cons p []).mp hfail
    obtain rfl := Option.some.inj hlast
    refine reaches_attempt hs hd hp1 hp2 fun d n v hdr => ?_
    rw [if_neg hne]
    exact h d n v hne hdr
  | cons q tries ih =>
    obtain ⟨⟨hp1, hp2, hne⟩, hfail⟩ := (attemptsFail_cons p _).mp hfail
    obtain ⟨hrestart, hd'⟩ := startEvent_after_address p.2.last.addrReply
    refine reaches_attempt hs hd hp1 hp2 fun d n v _ => ?_
    rw [if_neg hne]
    refine ih ((hs.afterEvents _ _ d n).returns v) hd' hfail hlast fun d' n' v' hack hdr => ?_
    rw [returns_afterEvents, afterEvents_afterEvents, State.returns_txn, afterEvents_txn, hrestart]
    exact h d' n' v' hack hdr

theorem reaches_waitUntilWriteComplete (hfail : attemptsFail tries = true) (hok1 : roundOk r1 = true)
    (hack : Answers r2)
    (h : ∀ n, Reaches ((s.afterEvents (pollEvents (startEvent s.txn) (attemptReplies tries)) (.addr 0xA0 .ack) 0xA0
      n).script more rs rest) P) :
    Reaches (s.script (.run .waitUntilWriteComplete :: more) (attemptRounds tries ++ r1 :: r2 :: rs) rest) P :=
  reaches_of_exec hs rfl (t := s.script (pollOps ++ .retUnit :: more) _ rest) (exec_waitUntilWriteComplete hs.unfaulted)
    (reaches_poll hs hd hfail hok1 hack h)

/-- The events of a write of `bytes` from a state in `txn`, with its poll (R177, R179). -/
def writeEvents (txn : Txn) (bytes : List Byte) (sends : List Round) (replies : List Reply) : List Event :=
  [startEvent txn, .addr 0xA0 .ack] ++ sendEvents bytes sends ++ [.stop] ++ pollEvents .start replies

/-- A write: the device answers its address, no byte loses arbitration, and the poll begins from Idle. -/
theorem reaches_writeOps {bytes : List Byte} {r3 r4 r5 : Round} {sends : List Round} (hok1 : roundOk r1 = true)
    (hack2 : Answers r2) (hlen : sends.length = bytes.length) (hsends : ∀ x ∈ sends, Sends x) (hok3 : roundOk r3 = true)
    (hfail : attemptsFail tries = true) (hok4 : roundOk r4 = true) (hack5 : Answers r5)
    (h : ∀ n, Reaches ((s.afterEvents (writeEvents s.txn bytes sends (attemptReplies tries)) (.addr 0xA0 .ack) 0xA0
      n).script more [] rest) P) :
    Reaches (s.script (writeOps bytes ++ more)
      ([r1, r2] ++ sends ++ [r3] ++ attemptRounds tries ++ [r4, r5]) rest) P := by
  obtain ⟨hok2, hreply⟩ := hack2
  rw [writeOps]
  simp only [List.append_assoc]
  refine reaches_addressDevice hs hd hok1 hok2 fun d n _ => ?_
  rw [hreply]
  refine reaches_transmitOps_stop (hs.afterEvents _ _ d n) rfl hlen hsends hok3 fun d n => ?_
  rw [afterEvents_afterEvents]
  refine reaches_waitUntilWriteComplete (hs.afterEvents _ _ d n) nofun hfail hok4 hack5 fun n => ?_
  rw [afterEvents_afterEvents]
  exact h n

end

end Sys2Proof.Machine
end

section
/-! The EEPROM sequences from their calls to their returns, each under its script of turns (R176 to R180, R197). -/

namespace Sys2Proof.Machine

theorem exists_runSteps {s : State} {f : Nat → State} (h : Reaches s fun t => ∃ d, t = f d) :
    ∃ n d, runSteps n s = .next (f d) := by
  obtain ⟨n, -, hrun, d, rfl⟩ := h
  exact ⟨n, d, hrun⟩

theorem Ready.fresh {s : State} (hs : Ready s) : Ready { s with out := [] } := hs.of_block_eq rfl

/-- The call of a sequence that begins with no byte kept. -/
theorem reaches_of_call {s : State} {i : Instr} {ops more : List HostOp} {rs : List Round} {rest : List Turn}
    {P : State → Prop} (hs : Ready s) (hw : i.wf = true)
    (hx : ∀ u : State, u.fault = none → exec i u = .next ({ u with out := [] }.push ops))
    (h : Reaches ({ s with out := [] }.script (ops ++ more) rs rest) P) :
    Reaches (s.script (.run i :: more) rs rest) P :=
  reaches_of_exec hs hw (hx (s.script more rs rest) hs.unfaulted) h

/-- Settles O42: the call, the read transaction of one byte, and its return. -/
theorem readByteRuns : Obligations.ReadByteRuns := by
  intro s a more r1 r2 r3 r4 r5 r6 r7 rest hinv hf hp hi hd ht hturns hok hack2 hdata hack5 hlost
  have hs : Ready s := ⟨hinv, hf, hp, hi⟩
  simp only [List.all_cons, List.all_nil, Bool.and_eq_true, Bool.and_true] at hok
  obtain ⟨hok1, hok2, hok3, hok4, hok5, hok6, hok7⟩ := hok
  refine exists_runSteps (reaches_of_script ht hturns (reaches_of_call hs rfl (fun _ hu => exec_readByte hu a) ?_))
  refine reaches_readOps (reads := []) hs.fresh hd hok1 ⟨hok2, hack2⟩ ⟨hok3, hdata⟩ hok4 ⟨hok5, hack5⟩
    (List.forall_mem_singleton.mpr ⟨hok6, hlost⟩) hok7 fun n => ?_
  exact reaches_retByte ((hs.fresh.afterEvents _ _ _ n).keep _) (reaches_here ⟨n, rfl⟩)

/-- Settles O46: the call, the read transaction, and its return. -/
theorem sequentialReadRuns : Obligations.SequentialReadRuns := by
  intro s a count more r1 r2 r3 r4 r5 r6 reads rest hinv hf hp hi hd hne hcount ht hturns hok hack2 hdata hack5 hlost
  have hs : Ready s := ⟨hinv, hf, hp, hi⟩
  obtain ⟨first, reads, rfl⟩ := List.exists_cons_of_ne_nil hne
  subst hcount
  rw [List.all_append, Bool.and_eq_true, List.all_eq_true (l := first :: reads)] at hok
  simp only [List.all_cons, List.all_nil, Bool.and_eq_true, Bool.and_true] at hok
  obtain ⟨⟨hok1, hok2, hok3, hok4, hok5, hok6⟩, hreads⟩ := hok
  refine exists_runSteps (reaches_of_script ht hturns
    (reaches_of_call hs rfl (fun _ hu => exec_sequentialRead hu a (Nat.succ_ne_zero _)) ?_))
  refine reaches_readOps hs.fresh hd hok1 ⟨hok2, hack2⟩ ⟨hok3, hdata⟩ hok4 ⟨hok5, hack5⟩
    (fun x hx => ⟨hreads x hx, hlost x hx⟩) hok6 fun n => ?_
  refine reaches_retBytes ((hs.fresh.afterEvents _ _ _ n).keep _) (reaches_here ⟨n, ?_⟩)
  simp only [readEvents, List.append_assoc]
  rfl

/-- Settles O44: a write of two bytes, the word address and the data. -/
theorem writeByteRuns : Obligations.WriteByteRuns := by
  intro s a b more r1 r2 r3 r4 r5 r6 r7 tries rest hinv hf hp hi hd ht hturns hok hfail hack2 hword hdata hack7
  have hs : Ready s := ⟨hinv, hf, hp, hi⟩
  simp only [List.all_cons, List.all_nil, Bool.and_eq_true, Bool.and_true] at hok
  obtain ⟨hok1, hok2, hok3, hok4, hok5, hok6, hok7⟩ := hok
  have hsends : ∀ x ∈ [r3, r4], Sends x :=
    List.forall_mem_cons.mpr ⟨⟨hok3, hword⟩, List.forall_mem_singleton.mpr ⟨hok4, hdata⟩⟩
  refine exists_runSteps (reaches_of_script ht hturns (reaches_of_call hs rfl (fun _ hu => exec_writeByte hu a b) ?_))
  refine reaches_writeOps (sends := [r3, r4]) hs.fresh hd hok1 ⟨hok2, hack2⟩ rfl hsends hok5 hfail hok6
    ⟨hok7, hack7⟩ fun n => reaches_here ⟨n, ?_⟩
  rw [List.append_assoc]
  rfl

/-- Settles O45: a write of the word address and the page's bytes. -/
theorem writePageRuns : Obligations.WritePageRuns := by
  intro s a data more r1 r2 r3 r4 r5 r6 sends tries rest hinv hf hp hi hd hne hpage hlen ht hturns hok hfail hack2 hword
    hdata hack6
  have hs : Ready s := ⟨hinv, hf, hp, hi⟩
  rw [List.all_append, Bool.and_eq_true, List.all_eq_true (l := sends)] at hok
  simp only [List.all_cons, List.all_nil, Bool.and_eq_true, Bool.and_true] at hok
  obtain ⟨⟨hok1, hok2, hok3, hok4, hok5, hok6⟩, hoks⟩ := hok
  have hsends : ∀ x ∈ r3 :: sends, Sends x :=
    List.forall_mem_cons.mpr ⟨⟨hok3, hword⟩, fun x hx => ⟨hoks x hx, hdata x hx⟩⟩
  refine exists_runSteps (reaches_of_script ht hturns
    (reaches_of_call hs rfl (fun _ hu => exec_writePage hu a hne hpage) ?_))
  refine reaches_writeOps (sends := r3 :: sends) hs.fresh hd hok1 ⟨hok2, hack2⟩ (congrArg Nat.succ hlen) hsends hok4
    hfail hok5 ⟨hok6, hack6⟩ fun n => reaches_here ⟨n, ?_⟩
  simp only [writeEvents, sendEvents, List.append_assoc]
  rfl

/-- Settles O43: the poll with its failed attempts, and the failed attempts alone. -/
theorem pollEndsExactlyOnAck : Obligations.PollEndsExactlyOnAck := by
  intro s more tries rest hinv hf hp hi hd ht hfail
  have hs : Ready s := ⟨hinv, hf, hp, hi⟩
  refine ⟨fun r1 r2 hok1 hok2 hack hturns => ?ends, fun r hturns hlast => ?fails⟩
  case ends =>
    exact exists_runSteps (reaches_of_script ht hturns
      (reaches_waitUntilWriteComplete hs hd hfail hok1 ⟨hok2, hack⟩ fun n => reaches_here ⟨n, rfl⟩))
  case fails =>
    obtain ⟨p, tries, rfl⟩ := List.exists_cons_of_ne_nil
      (show tries ≠ [] by rintro rfl; cases hlast)
    have hreach : Reaches s fun t => ∃ d n v, r ≠ .ack ∧ (r ≠ .lost → d = 0xA0) ∧
        t = ((s.afterEvents (attemptEvents (startEvent s.txn) (attemptReplies (p :: tries))) (.addr 0xA0 r) d
          n).returns v).script (pollOps ++ .retUnit :: more) [] rest := by
      refine reaches_of_script ht hturns (reaches_of_exec hs rfl (t := s.script (pollOps ++ .retUnit :: more) _ rest)
        (exec_waitUntilWriteComplete hs.unfaulted) ?_)
      rw [← List.append_nil (attemptRounds (p :: tries))]
      exact reaches_failedAttempts hs hd hfail hlast fun d n v hack hdr => reaches_here ⟨d, n, v, hack, hdr, rfl⟩
    obtain ⟨n, _, hrun, d, m, v, hack, hdr, rfl⟩ := hreach
    refine ⟨n, m, v, d, fun hnak => hdr (by rw [hnak]; decide), hrun.trans ?_⟩
    cases r with
    | ack => exact absurd rfl hack
    | nak | lost => rfl

theorem step_of_faulted {s : State} {r : Fault} (hf : s.fault = some r) : step s = .fault r :=
  unlessFaulted_of_some hf _

theorem exec_transmitByte_of_not_mayTransmit {s : State} {b : Byte} (hf : s.fault = none) (hi : s.initialized = true)
    (ht : mayTransmit s.txn = false) :
    exec (.transmitByte b) s = .next (s.raise (.contractViolation (.callOrder .transmitByte s.txn))) :=
  callPrimitive_of_some _ hf (requireTxn_of_not_permitted _ hi ht)

/-- Settles O47: after the NAKed address the call of transmitByte faults, and a faulted state has no step. -/
theorem readByteWithoutDeviceFaults : Obligations.ReadByteWithoutDeviceFaults := by
  intro s a more r1 r2 rest hinv hf hp hi hd ht hturns hok1 hok2 hnak
  have hs : Ready s := ⟨hinv, hf, hp, hi⟩
  have hreach : Reaches s fun t => t.txn = .addrSent .w .nak ∧
      t.trace = s.trace ++ [startEvent s.txn, .addr 0xA0 .nak] ∧
      t.fault = some (.contractViolation (.callOrder .transmitByte (.addrSent .w .nak))) := by
    refine reaches_of_script ht hturns (reaches_of_call hs rfl (fun _ hu => exec_readByte hu a) ?_)
    rw [readOps]
    simp only [List.append_assoc]
    refine reaches_addressDevice hs.fresh hd hok1 hok2 fun d n _ => ?_
    rw [hnak]
    exact reaches_of_exec (hs.fresh.afterEvents _ _ d n) rfl
      (exec_transmitByte_of_not_mayTransmit hs.unfaulted hs.initialized rfl) (reaches_here ⟨rfl, rfl, rfl⟩)
  obtain ⟨n, t, hrun, htxn, htrace, hfault⟩ := hreach
  exact ⟨n, t, hrun, htxn, htrace, hfault, (runSteps_add n 1 hrun).trans (runSteps_succ_fault (step_of_faulted hfault))⟩

end Sys2Proof.Machine
end

section
/-! The argument errors of the sequences are values that HOST gets back (R179, R180, R198). -/

namespace Sys2Proof.Machine

/-- A length outside 1 to PAGE_SIZE is answered before any contract check (R179, log 21). -/
theorem exec_writePage_of_badLength {s : State} (hf : s.fault = none) (a : Byte) {data : List Byte}
    (hlen : data.length = 0 ∨ Config.pageSize < data.length) :
    exec (.writePage a data) s = .next (s.returns (.error .lengthOutOfRange)) :=
  (if_pos hlen).trans (unlessFaulted_of_none hf _)

/-- A zero count is answered before any contract check (R180, log 21). -/
theorem exec_sequentialRead_zero {s : State} (hf : s.fault = none) (a : Byte) :
    exec (.sequentialRead a 0) s = .next (s.returns (.error .countMismatch)) :=
  (show execSequentialRead a 0 s = _ from if_pos rfl).trans (unlessFaulted_of_none hf _)

/-- Settles O33: by the check each sequence makes first. -/
theorem sequenceErrorsAreValues : Obligations.SequenceErrorsAreValues := by
  intro s hf
  exact ⟨fun a data => exec_writePage_of_badLength hf a, exec_sequentialRead_zero hf⟩

end Sys2Proof.Machine
end

section
/-! A fault is terminal, and raising one changes nothing else (R196, R197, log 4): by the shared operation an instruction
is made of. -/

namespace Sys2Proof.Machine

/-- `t` is unfaulted, or it is `s` with a fault raised and no other change. -/
def RaisesOnly (s t : State) : Prop := t.fault = none ∨ ∃ r, t = s.raise r

/-- The outcome `o` of an operation in `s`: the recorded fault where `s` is faulted, and a next state with no more than a
fault raised where it is faulted itself. -/
structure FaultsPrecisely (s : State) (o : Outcome) : Prop where
  terminal {r : Fault} : s.fault = some r → o = .fault r
  precise {t : State} : o = .next t → RaisesOnly s t

/-- Where an operation raises a fault, its next state is the old one with that fault. -/
theorem FaultsPrecisely.eq_raise {s t : State} {o : Outcome} {r : Fault} (ho : FaultsPrecisely s o) (h : o = .next t)
    (ht : t.fault = some r) : t = s.raise r := by
  obtain hnone | ⟨r', rfl⟩ := ho.precise h
  · cases hnone.symm.trans ht
  · rw [Option.some.inj ht]

/-! ### The shared operations -/

section
variable {s : State}

theorem raisesOnly_raise (r : Fault) : RaisesOnly s (s.raise r) := .inr ⟨r, rfl⟩

theorem faultsPrecisely_unlessFaulted {o : Outcome} (ho : ∀ {t}, s.fault = none → o = .next t → RaisesOnly s t) :
    FaultsPrecisely s (unlessFaulted s o) where
  terminal hr := unlessFaulted_of_some hr o
  precise h := by
    obtain ⟨hf, h⟩ := unlessFaulted_next h
    exact ho hf h

/-- An operation whose next state has the fault of the old one. -/
theorem faultsPrecisely_next {u : State} (hu : u.fault = s.fault) : FaultsPrecisely s (unlessFaulted s (.next u)) :=
  faultsPrecisely_unlessFaulted fun hf h => by cases h; exact .inl (hu.trans hf)

theorem regRead_faultsPrecisely (off : BitVec 3) : FaultsPrecisely s (regRead off s) where
  terminal hr := unlessFaulted_of_some hr _
  precise h := by
    obtain ⟨hf, ⟨r, -, rfl⟩ | ⟨-, rfl⟩⟩ := regRead_next h
    · exact .inl ((congrArg State.fault (block_readReg r s) :).trans hf)
    · exact raisesOnly_raise _

theorem writeDr_raisesOnly {d : Byte} {t : State} (hf : s.fault = none) (h : writeDr d s = .next t) :
    RaisesOnly s t := by
  obtain ⟨-, rfl⟩ | ⟨-, -, rfl⟩ | ⟨-, -, rfl⟩ := writeDr_next h
  · exact raisesOnly_raise _
  · exact raisesOnly_raise _
  · exact .inl hf

/-- A command raises a fault and does no more, or sets CR or launches a phase and raises none (R107). -/
theorem writeCommand_raisesOnly {cmd : Command} {v : Byte} {t : State} (hf : s.fault = none)
    (h : writeCommand cmd v s = .next t) : RaisesOnly s t := by
  obtain ⟨r, rfl⟩ | ⟨-, -, -, rfl⟩ | ⟨-, -, rfl⟩ | ⟨-, -, k, -, rfl⟩ | ⟨-, -, rfl⟩ | ⟨-, -, k, -, rfl⟩ :=
    writeCommand_next h
  · exact raisesOnly_raise r
  all_goals exact .inl hf

theorem regWrite_faultsPrecisely (off : BitVec 3) (v : Byte) : FaultsPrecisely s (regWrite off v s) where
  terminal hr := unlessFaulted_of_some hr _
  precise h := by
    obtain ⟨hf, ⟨r, -, h⟩ | ⟨-, rfl⟩⟩ := regWrite_next h
    · cases r with
      | br | sr => cases h; exact .inl hf
      | dr => exact writeDr_raisesOnly hf h
      | cr => exact writeCommand_raisesOnly hf h
    · exact raisesOnly_raise _

theorem regAccess_faultsPrecisely (we : Bool) (off : BitVec 3) (data : Byte) :
    FaultsPrecisely s (regAccess we off data s) := by
  cases we
  · exact regRead_faultsPrecisely off
  · exact regWrite_faultsPrecisely off data

theorem command_faultsPrecisely (cmd : Command) (v : Byte) :
    FaultsPrecisely s (unlessFaulted s (writeCommand cmd v s)) :=
  faultsPrecisely_unlessFaulted writeCommand_raisesOnly

/-- SEQ's step raises no fault where the phase's effect raises none. -/
theorem seqComplete_faultsPrecisely {k : Phase} {effect : Turn → State → State}
    (he : ∀ tn, (effect tn s.nextTurn).fault = s.fault) : FaultsPrecisely s (seqComplete k effect s) where
  terminal hr := unlessFaulted_of_some hr _
  precise h := by
    obtain ⟨hf, -, ⟨-, rfl⟩ | ⟨-, rfl⟩⟩ := seqComplete_next h
    · exact .inl ((he _).trans hf)
    · exact .inl hf

theorem callPrimitive_faultsPrecisely (violation : Option Contract) (expansion : List HostOp) :
    FaultsPrecisely s (callPrimitive violation expansion s) where
  terminal hr := unlessFaulted_of_some hr _
  precise h := by
    obtain ⟨hf, ⟨c, -, rfl⟩ | ⟨-, rfl⟩⟩ := callPrimitive_next h
    · exact raisesOnly_raise _
    · exact .inl hf

theorem execInitialize_faultsPrecisely (f : Nat) : FaultsPrecisely s (execInitialize f s) := by
  refine faultsPrecisely_unlessFaulted fun hf h => ?_
  split at h
  · cases h; exact raisesOnly_raise _
  · split at h <;> cases h <;> exact .inl hf

theorem execWritePage_faultsPrecisely (a : Byte) (data : List Byte) : FaultsPrecisely s (execWritePage a data s) := by
  unfold execWritePage
  split <;> exact faultsPrecisely_next rfl

theorem execSequentialRead_faultsPrecisely (a : Byte) (count : Nat) :
    FaultsPrecisely s (execSequentialRead a count s) := by
  unfold execSequentialRead
  split <;> exact faultsPrecisely_next rfl

end

/-! ### Every instruction -/

theorem exec_faultsPrecisely (i : Instr) (s : State) : FaultsPrecisely s (exec i s) := by
  cases i with
  | rdBr => exact regRead_faultsPrecisely 0
  | rdSr => exact regRead_faultsPrecisely 1
  | rdDr => exact regRead_faultsPrecisely 3
  | rdCr => exact regRead_faultsPrecisely 4
  | wrBr d => exact regWrite_faultsPrecisely 0 d
  | wrSr v => exact regWrite_faultsPrecisely 1 v
  | wrDr d => exact regWrite_faultsPrecisely 3 d
  | wrCr v => exact regWrite_faultsPrecisely 4 v
  | reservedOff2 we d | reservedOff5 we d | reservedOff6 we d | reservedOff7 we d =>
    exact regAccess_faultsPrecisely we _ d
  | cmdDisable v | cmdEnable v | cmdStart v | cmdStop v | cmdContNak v | cmdContAck v | cmdStartNoclr v
  | cmdStopNoclr v | cmdStopStart v => exact command_faultsPrecisely _ v
  | phStart => exact show FaultsPrecisely s (execPhStart s) from seqComplete_faultsPrecisely fun _ => rfl
  | phRstart => exact show FaultsPrecisely s (execPhRstart s) from seqComplete_faultsPrecisely fun _ => rfl
  | phSlaW frame =>
    change FaultsPrecisely s (execPhSlaW frame s)
    exact seqComplete_faultsPrecisely fun tn => by cases tn.addrReply <;> rfl
  | phSlaR frame =>
    change FaultsPrecisely s (execPhSlaR frame s)
    exact seqComplete_faultsPrecisely fun tn => by cases tn.addrReply <;> rfl
  | phDataTx byte =>
    change FaultsPrecisely s (execPhDataTx byte s)
    exact seqComplete_faultsPrecisely fun tn => by cases tn.dataReply <;> rfl
  | phDataRxAck => exact show FaultsPrecisely s (execPhDataRxAck s) from seqComplete_faultsPrecisely fun _ => rfl
  | phDataRxNak =>
    change FaultsPrecisely s (execPhDataRxNak s)
    exact seqComplete_faultsPrecisely fun tn => by cases tn.readLost <;> rfl
  | phStop silent => exact show FaultsPrecisely s (execPhStop silent s) from seqComplete_faultsPrecisely fun _ => rfl
  | initializeBus f => exact execInitialize_faultsPrecisely f
  | status => exact callPrimitive_faultsPrecisely none [.run .rdSr, .maskStatus]
  | start | stop | transmitAddress _ _ | transmitByte _ | receiveByte _ => exact callPrimitive_faultsPrecisely _ _
  | describe _ | waitUntilWriteComplete | readByte _ | writeByte _ _ => exact faultsPrecisely_next rfl
  | writePage a data => exact execWritePage_faultsPrecisely a data
  | sequentialRead a count => exact execSequentialRead_faultsPrecisely a count

/-- Settles O49: every instruction faults precisely, and a faulted state has no step. -/
theorem faultsAreTerminalAndPrecise : Obligations.FaultsAreTerminalAndPrecise := by
  refine ⟨fun s r hr => ⟨fun i => ?exec, step_of_faulted hr⟩, fun i s t r h ht => ?precise⟩
  case exec => exact (exec_faultsPrecisely i s).terminal hr
  case precise => exact (exec_faultsPrecisely i s).eq_raise h ht

end Sys2Proof.Machine
end
